-- ==== Sys2Proof/Word.lean ====
section
/-! DEFINITION. The word types of HFRE (30_encoding.md R70, 10_state.md R21, 00_scope.md R6): a command or response word, a
byte value, a weight, the index field of a word. All are unsigned (00_scope.md R7). -/

namespace Sys2Proof

/-- A command word or a response word: 64 bits, numbered 63 down to 0 (R70, R71). -/
abbrev Word := BitVec 64

/-- The byte value a leaf holds, 0 to 255 (R21). -/
abbrev Byte := BitVec 8

/-- A weight: 32 bits, unsigned (R21, R131). -/
abbrev Weight := BitVec 32

/-- A node index as a word carries it: 12 bits (R6, R75). -/
abbrev IdxField := BitVec 12

end Sys2Proof
end

