-- ==== Sys2Proof/Syntax.lean ====
section
/-! DEFINITION. The commands (30_encoding.md R73, opcode_table.json), the reasons a word is no command (R78), and the lines of
the spec's assembler (R80, R81). -/

namespace Sys2Proof

/-- The six commands, one constructor per row of the opcode table, with the operands of R75. -/
inductive Instr where
  /-- CLEAR, format C0 (40_forest_load.md R100) -/
  | clear
  /-- PUSH byte, weight, format CP (40_forest_load.md R101) -/
  | push (byte : Byte) (weight : Weight)
  /-- MERGE, format C0 (41_reduction.md R124) -/
  | merge
  /-- REDUCE, format C0 (41_reduction.md R125) -/
  | reduce
  /-- RDNODE idx, format CI (42_readout.md R150) -/
  | rdnode (idx : IdxField)
  /-- RDSTAT, format C0 (42_readout.md R151) -/
  | rdstat
deriving DecidableEq, Repr

/-- Why a word is ILLEGAL (R78). Both reasons raise the one error IllegalCommand (60_exceptions.md R180). -/
inductive Illegal where
  /-- `OP` = 0 or `OP` in 7 to 15 -/
  | badOpcode (op : BitVec 4)
  /-- a legal `OP` with a must-be-zero bit set (R74) -/
  | mbzSet (op : BitVec 4)
deriving DecidableEq, Repr

/-- A line of the spec's assembler, its numbers as written (R80), and the one pseudo-instruction (R81). -/
inductive AsmLine where
  | clear
  | push (byte weight : Nat)
  | merge
  | reduce
  | rdnode (idx : Nat)
  | rdstat
  /-- PUSHTABLE: the entries `byte: weight` in the order written -/
  | pushTable (entries : List (Nat × Nat))
deriving DecidableEq, Repr

end Sys2Proof
end

