-- ==== Sys2Proof/WellFormed.lean ====
section
/-! DEFINITION. Which operands a command may have (30_encoding.md R75, R79, R80). -/

namespace Sys2Proof

/-- R80: `<byte>` is at most 255. -/
def byteFits (b : Nat) : Bool := b < 256

/-- R80: `<weight>` is at most 2^32 - 1. -/
def weightFits (w : Nat) : Bool := w < 4294967296

/-- R80: `<idx>` is at most 4095. -/
def idxFits (i : Nat) : Bool := i < 4096

/-- R80: an operand that does not fit its field is an assembly error, not a command. R81 asks the same of each entry of a
PUSHTABLE. -/
def AsmLine.wellFormed : AsmLine → Bool
  | .clear => true
  | .push b w => byteFits b && weightFits w
  | .merge => true
  | .reduce => true
  | .rdnode i => idxFits i
  | .rdstat => true
  | .pushTable entries => entries.all fun e => byteFits e.1 && weightFits e.2

/-- R79: the operand ranges of a command, "b < 2^8, x < 2^32, i < 2^12". The field types of `Instr` are exactly these
ranges, so every command meets the check (`Instr.wellFormed_of_types`, Laws/Encoding.lean). -/
def Instr.wellFormed : Instr → Bool
  | .clear => true
  | .push b w => byteFits b.toNat && weightFits w.toNat
  | .merge => true
  | .reduce => true
  | .rdnode i => idxFits i.toNat
  | .rdstat => true

end Sys2Proof
end

