-- ==== Sys2Proof/Decode.lean ====
section
/-! DEFINITION. Command words (30_encoding.md R70 to R79, opcode_table.json): the decoder, total on 64-bit words and rejecting
by name; the encoder; the match and mask table; the assembler's operands made into commands (R80, R81). -/

namespace Sys2Proof

/-- `w[lo+len-1:lo]`, the field of `len` bits from bit `lo` up (00_scope.md R7). -/
def field (w : Word) (lo len : Nat) : BitVec len := w.extractLsb' lo len

/-- `OP` of a command word and `RC` of a response word: bits [63:60] (R71). -/
def opOf (w : Word) : BitVec 4 := field w 60 4

/-- Decoding (R79), with the must-be-zero bits of each format (R72, R74): a word of format C0 has [59:0] zero, of format CP
[59:40], of format CI [59:44] and [31:0]. -/
def decode (w : Word) : Except Illegal Instr :=
  if opOf w = 1#4 then
    if field w 0 60 = 0#60 then .ok .clear else .error (.mbzSet (opOf w))
  else if opOf w = 2#4 then
    if field w 40 20 = 0#20 then .ok (.push (field w 32 8) (field w 0 32)) else .error (.mbzSet (opOf w))
  else if opOf w = 3#4 then
    if field w 0 60 = 0#60 then .ok .merge else .error (.mbzSet (opOf w))
  else if opOf w = 4#4 then
    if field w 0 60 = 0#60 then .ok .reduce else .error (.mbzSet (opOf w))
  else if opOf w = 5#4 then
    if field w 44 16 = 0#16 ∧ field w 0 32 = 0#32 then .ok (.rdnode (field w 32 12)) else .error (.mbzSet (opOf w))
  else if opOf w = 6#4 then
    if field w 0 60 = 0#60 then .ok .rdstat else .error (.mbzSet (opOf w))
  else .error (.badOpcode (opOf w))

/-- Encoding (R79): the opcode shifted to [63:60], the operands to their fields. -/
def encode : Instr → Word
  | .clear => 1#64 <<< 60
  | .push b x => (2#64 <<< 60) ||| (b.setWidth 64 <<< 32) ||| x.setWidth 64
  | .merge => 3#64 <<< 60
  | .reduce => 4#64 <<< 60
  | .rdnode i => (5#64 <<< 60) ||| (i.setWidth 64 <<< 32)
  | .rdstat => 6#64 <<< 60

/-- The `match` column of R73 and of opcode_table.json, by command. -/
def matchOf : Instr → Word
  | .clear => 0x1000000000000000#64
  | .push _ _ => 0x2000000000000000#64
  | .merge => 0x3000000000000000#64
  | .reduce => 0x4000000000000000#64
  | .rdnode _ => 0x5000000000000000#64
  | .rdstat => 0x6000000000000000#64

/-- The `mask` column of R73 and of opcode_table.json, by command. -/
def maskOf : Instr → Word
  | .clear => 0xFFFFFFFFFFFFFFFF#64
  | .push _ _ => 0xFFFFFF0000000000#64
  | .merge => 0xFFFFFFFFFFFFFFFF#64
  | .reduce => 0xFFFFFFFFFFFFFFFF#64
  | .rdnode _ => 0xFFFFF000FFFFFFFF#64
  | .rdstat => 0xFFFFFFFFFFFFFFFF#64

/-- The commands an assembler line stands for (R80, R81); `none` is R80's assembly error. -/
def assemble (l : AsmLine) : Option (List Instr) :=
  if l.wellFormed then
    match l with
    | .clear => some [.clear]
    | .push b w => some [.push (BitVec.ofNat 8 b) (BitVec.ofNat 32 w)]
    | .merge => some [.merge]
    | .reduce => some [.reduce]
    | .rdnode i => some [.rdnode (BitVec.ofNat 12 i)]
    | .rdstat => some [.rdstat]
    | .pushTable entries => some (entries.map fun e => .push (BitVec.ofNat 8 e.1) (BitVec.ofNat 32 e.2))
  else none

/-- The command in a word of `nbits` bits whose value is `w`, every bit above `nbits` zero (every command is one 64-bit word,
R70; log 7). -/
def decodeTableWord (nbits w : Nat) : Option Instr := (decode (BitVec.ofNat 64 (w % 2 ^ nbits))).toOption

end Sys2Proof
end

