-- ==== Sys2Proof/Config.lean ====
section
/-! DEFINITION. What an implementation fixes (00_scope.md R6) and the values the spec leaves open (10_state.md R35, R36). -/

namespace Sys2Proof

/-- Which of several equal-weight trees is extracted first (00_scope.md R6, 41_reduction.md R121, R122). -/
inductive TiePolicy where
  /-- any member of least weight (R121) -/
  | any
  /-- the least index among the members of least weight (R122) -/
  | fifo
deriving DecidableEq, Repr, Inhabited

/-- Most leaves between two clears (R6, R24). -/
def Config.maxLeaves : Nat := 256

/-- Number of node records, `2 * maxLeaves - 1`; indices 0 to 510 (R6, R22). -/
def Config.nodeCap : Nat := 511

/-- The largest weight, 2^32 - 1 (R6 `WEIGHT_BITS` = 32, R101). -/
def Config.maxWeight : Nat := 4294967295

/-- `TIE_POLICY` is OPEN in the spec (R6, 92_eei_decisions.md D9): a constant with no body, so that what is proved of the
block holds for both values. DESIGN CHOICE (log 2), safe. -/
opaque Config.tiePolicy : TiePolicy

/-- FREE VALUE (R121, R36; 93_implementation_defined.md U2): the choice the `n`-th extraction makes among several members of
least weight, under `TIE_POLICY` = `ANY`. It has no body: nothing can be proved of which it is. DESIGN CHOICE of the form
(log 3): safe for a statement about one run, unsafe for one that two runs end alike. -/
opaque Config.tieChoice : Nat → Nat

end Sys2Proof
end

