-- ==== Sys2Proof/Machine/State.lean ====
section
/-! DEFINITION. The state of HFRE (10_state.md R20), its data types, the reasons a step can stop, and the state after reset
(R37). The last three fields of `State` are the model's own: the host's coming moves, the responses it has received, and the
counter of the free tie choices (log 1, 6, 3). -/

namespace Sys2Proof.Machine

/-- A node record, the source's tagged union (R21). An absent field does not exist: a leaf has no children, an internal node
no byte. Children are node indices. -/
inductive Node where
  /-- TAG = 0 -/
  | leaf (byte : Byte) (weight : Weight)
  /-- TAG = 1; `left` is the tree extracted first, `right` the tree extracted second -/
  | internal (left right : Nat) (weight : Weight)
deriving DecidableEq, Repr

/-- The node store `NODE` (R22, 20_memory.md R50): pairs of an index and its record, indices strictly rising. An index not
listed has no value (92_eei_decisions.md D24). -/
abbrev Memory := List (Nat × Node)

/-- `PHASE` (R30). -/
inductive Phase where
  | idle
  | busy
deriving DecidableEq, Repr

/-- The errors the block raises (60_exceptions.md R170). They are responses, not stops. -/
inductive Error where
  | emptyInput
  | tooFew
  | full
  | weightOverflow
  | badIndex
  | illegalCommand
deriving DecidableEq, Repr

/-- One move of the host (70_reset_and_hazards.md R203, R209). -/
inductive HostMove where
  /-- offer the command word `w` until it is accepted (R204) -/
  | issue (w : Word)
  /-- take the response, waiting for one if there is none yet (R205) -/
  | take
  /-- do nothing for one step (R209: the host may delay) -/
  | wait
  /-- assert reset (R200) -/
  | reset
deriving DecidableEq, Repr

/-- The reasons a step stops. No rule of the spec stops the machine: each reason can arise only in a state that R34 rules
out, in which a rule reads something that has no value. All are safe (log 4). -/
inductive Fault where
  /-- A record that has no value is read (R22: "no rule reads it"): raised by the reads of RDNODE, of the responses RX and of
  `extract_min`. Safe. -/
  | noRecord
  /-- A record is written at an index above 510, where none exists (R22, R51): raised by PUSH and by a merge step. Safe. -/
  | storeExhausted
  /-- `extract_min` of the empty set (R121 defines it for a non-empty set): raised by a merge step. Safe. -/
  | emptyQueue
  /-- `Q` is not a single root where R206 reads "the one member of Q": raised by the finishing `Work` step. Safe. -/
  | noSingleRoot
deriving DecidableEq, Repr

/-- The reasons a step is refused. -/
inductive Refusal where
  /-- An instruction that has no meaning yet: raised by `exec` alone; no arm of `exec` raises it now. Safe. -/
  | notModelled (mnemonic : String)
deriving DecidableEq, Repr

/-- The whole state (R20), field by field under the spec's names, and the model's own last three fields. -/
structure State where
  /-- `NODE[0..510]` (R21, R22) -/
  node : Memory
  /-- `NNODES`, 0 to 511 (R23) -/
  nnodes : Nat
  /-- `NLEAF`, 0 to 256 (R24) -/
  nleaf : Nat
  /-- `COUNT`, 0 to 256 (R25) -/
  count : Nat
  /-- `Q`, a set of node indices, listed strictly rising (R26) -/
  q : List Nat
  /-- `TOTAL`, 32 bits (R27) -/
  total : Weight
  /-- `ROOT`, 0 to 510 (R28) -/
  root : Nat
  /-- `RV` (R28) -/
  rv : Bool
  /-- `FAULT`, 8 sticky bits (R29) -/
  fault : BitVec 8
  /-- `PHASE` (R30) -/
  phase : Phase
  /-- `RSP`, empty or one word (R31) -/
  rsp : Option Word
  /-- The model's own: the host's coming moves, the next one first (R36; log 1). -/
  host : List HostMove
  /-- The model's own: the responses the host has taken, oldest first (70_reset_and_hazards.md R211; log 6). -/
  taken : List Word
  /-- The model's own: how many extractions have been made, the argument of `Config.tieChoice` (R36; log 3). -/
  tie : Nat
deriving DecidableEq, Repr

/-- The state after reset (R37), the host with no moves planned, nothing taken. DESIGN CHOICE for the last three fields (log
1, 6, 3). -/
def State.reset : State where
  node := []
  nnodes := 0
  nleaf := 0
  count := 0
  q := []
  total := 0#32
  root := 0
  rv := false
  fault := 0x00#8
  phase := .idle
  rsp := none
  host := []
  taken := []
  tie := 0

end Sys2Proof.Machine
end

