-- ==== Sys2Proof/Machine/Flags.lean ====
section
/-! DEFINITION. Error codes, the `FAULT` bits, and the conditions the commands test (10_state.md R29, 60_exceptions.md R170,
41_reduction.md R131). -/

namespace Sys2Proof.Machine

/-- The `RC` of an error (R170). -/
def Error.code : Error → BitVec 4
  | .emptyInput => 1#4
  | .tooFew => 2#4
  | .full => 3#4
  | .weightOverflow => 4#4
  | .badIndex => 5#4
  | .illegalCommand => 6#4

/-- Bit `c - 1` of `FAULT`, alone set, for an error with code `c` (R29, R171). -/
def Error.faultBit (e : Error) : BitVec 8 := 1#8 <<< (e.code.toNat - 1)

/-- `FAULT` after an error: its bit set, every other bit as it was (R29: sticky). -/
def setFault (e : Error) (f : BitVec 8) : BitVec 8 := f ||| e.faultBit

/-- `NLEAF = 256`: no further leaf fits (R24, R101). -/
def leavesFull (s : State) : Bool := s.nleaf = Config.maxLeaves

/-- `TOTAL + weight > 2^32 - 1`, "the sum taken in the integers, not mod 2^32" (R101, R131). -/
def totalOverflows (total w : Weight) : Bool := total.toNat + w.toNat > Config.maxWeight

/-- `idx >= NNODES`, the full 12 bits compared unsigned (R75, R150). -/
def indexBad (s : State) (idx : IdxField) : Bool := idx.toNat ≥ s.nnodes

/-- `cmd_ready` (70_reset_and_hazards.md R201): `PHASE = IDLE` and `RSP` empty. -/
def cmdReady (s : State) : Bool := s.phase = .idle ∧ s.rsp = none

/-- `rsp_valid` (R201): `RSP` is full. -/
def rspValid (s : State) : Bool := s.rsp.isSome

/-- `rsp_data` (R201): the word in `RSP`, meaningful only while `rsp_valid`. -/
def rspData (s : State) : Option Word := s.rsp

end Sys2Proof.Machine
end

