-- ==== Sys2Proof/Machine/Operands.lean ====
section
/-! DEFINITION. The fields of a node record and the four response formats RE, RX, RN, RS (10_state.md R21, 30_encoding.md R76),
and the host's reading of a response word (R77, 93_implementation_defined.md U14). Command operands are taken from the word by
`decode` (R75). -/

namespace Sys2Proof.Machine

/-- `NODE[i].WEIGHT`, present in both variants (R21). -/
def Node.weight : Node → Weight
  | .leaf _ w => w
  | .internal _ _ w => w

/-- `NODE[i].TAG` in its 4-bit field: 0 = Leaf, 1 = Internal (R21, R76). -/
def Node.tag : Node → BitVec 4
  | .leaf _ _ => 0#4
  | .internal _ _ _ => 1#4

/-- `zext_12` of a small number kept as a natural number: its 12-bit field (R76). Every value it is applied to is below 4096 in
the states of 10_state.md R34 (log 8). -/
def zext12 (n : Nat) : BitVec 12 := BitVec.ofNat 12 n

/-- Format RE: the error code in [63:60], zeros below (R76). -/
def reWord (e : Error) : Word := e.code ++ 0#60

/-- Format RX: index, tag and weight of node `i`, whose record is `n` (R76). -/
def rxWord (i : Nat) (n : Node) : Word := 0#4 ++ n.tag ++ 0#12 ++ zext12 i ++ n.weight

/-- Format RN: a node record (R76). A Leaf has BYTE in [39:32] and zeros in [55:40]; an Internal has LEFT in [55:44] and RIGHT
in [43:32]. -/
def rnWord : Node → Word
  | .leaf b w => 0#4 ++ 0#4 ++ 0#12 ++ 0#4 ++ b ++ w
  | .internal l r w => 0#4 ++ 1#4 ++ zext12 l ++ zext12 r ++ w

/-- Format RS: the status word (R76, 42_readout.md R151). -/
def rsWord (s : State) : Word :=
  0#4 ++ s.fault ++ 0#3 ++ BitVec.ofBool s.rv ++ zext12 s.root ++ zext12 s.nnodes ++ zext12 s.nleaf ++ zext12 s.count

/-- `RC`, by which the host tells a success from an error (R71, R77). -/
def rcOf (r : Word) : BitVec 4 := opOf r

/-- The host's reading of a response to RDNODE. It refuses an error word, a TAG of 2 to 15 and a nonzero bit where the format
has zeros (U14). -/
def readRn (r : Word) : Option Node :=
  if rcOf r = 0#4 then
    if field r 56 4 = 0#4 then
      if field r 40 16 = 0#16 then some (.leaf (field r 32 8) (field r 0 32)) else none
    else if field r 56 4 = 1#4 then
      some (.internal (field r 44 12).toNat (field r 32 12).toNat (field r 0 32))
    else none
  else none

end Sys2Proof.Machine
end

