-- ==== Sys2Proof/Machine/Ops.lean ====
section
/-! DEFINITION. The operations over the node store and the priority structure (10_state.md R22, R26), extraction and the merge
step (41_reduction.md R121 to R123), a response and an error (00_scope.md R8, 60_exceptions.md R171), taking a response, and
reset (70_reset_and_hazards.md R205, R200). -/

namespace Sys2Proof.Machine

/-! ## The node store -/

/-- `MemRead(i, 1)`: the record at index `i`; an index not listed has no value (00_scope.md R8, 10_state.md R22). -/
def Memory.read : Memory → Nat → Option Node
  | [], _ => none
  | (j, n) :: rest, i => if i = j then some n else Memory.read rest i

/-- `MemWrite(i, 1, rec)`: the record at index `i` becomes `n` (R8); the indices stay strictly rising. -/
def Memory.write : Memory → Nat → Node → Memory
  | [], i, n => [(i, n)]
  | (j, m) :: rest, i, n =>
    if i < j then (i, n) :: (j, m) :: rest
    else if i = j then (i, n) :: rest
    else (j, m) :: Memory.write rest i n

/-- The canonical form: the listed indices are strictly rising. (An entry is a record, and an unlisted index has no value, so
no entry equals what an unlisted index reads as.) -/
abbrev Memory.wf (m : Memory) : Prop := (m.map Prod.fst).Pairwise (· < ·)

/-- A read of a record that must exist; it faults where there is none (log 4). -/
def readNode (m : Memory) (i : Nat) : Except Fault Node :=
  match m.read i with
  | some n => .ok n
  | none => .error .noRecord

/-! ## The priority structure -/

/-- `S + {i}` on a strictly rising list (00_scope.md R7). -/
def qInsert (i : Nat) : List Nat → List Nat
  | [] => [i]
  | j :: rest => if i < j then i :: j :: rest else if i = j then j :: rest else j :: qInsert i rest

/-- `S \ {i}` (R7). -/
def qRemove (i : Nat) (S : List Nat) : List Nat := S.filter (· ≠ i)

/-- The canonical form of a set of node indices: strictly rising. -/
abbrev qWf (S : List Nat) : Prop := S.Pairwise (· < ·)

/-- The members of `S`, each with its `WEIGHT`; no value where some member has no record. -/
def queueWeights (m : Memory) : List Nat → Option (List (Nat × Weight))
  | [] => some []
  | i :: rest =>
    match m.read i, queueWeights m rest with
    | some n, some ws => some ((i, n.weight) :: ws)
    | _, _ => none

/-- The members of least weight: `i in S` with `WEIGHT(i) <= WEIGHT(j)` for all `j in S`, weights compared as unsigned 32-bit
numbers and nothing else compared (R120, R121). -/
def leastMembers (ws : List (Nat × Weight)) : List Nat :=
  (ws.filter fun p => ws.all fun r => p.2 ≤ r.2).map Prod.fst

/-- One of the members of least weight. Alone, it is the result (R121); among several, `ANY` leaves the choice open, here the
free number `choice` counted round the list, and `FIFO` yields the least index (R122). -/
def pickTie (pol : TiePolicy) (choice : Nat) : List Nat → Except Fault Nat
  | [] => .error .emptyQueue
  | [i] => .ok i
  | i :: rest =>
    match pol with
    | .any => .ok ((i :: rest).getD (choice % (i :: rest).length) i)
    | .fifo => .ok (rest.foldl min i)

/-- `extract_min(S)` (R121, R122) over the records of `m`. -/
def extractMin (pol : TiePolicy) (choice : Nat) (m : Memory) (S : List Nat) : Except Fault Nat :=
  match queueWeights m S with
  | some ws => pickTie pol choice (leastMembers ws)
  | none => .error .noRecord

/-! ## New nodes and the merge step -/

/-- The index a new node gets (10_state.md R23). -/
def allocIndex (s : State) : Nat := s.nnodes

/-- `NODE[NNODES] <- rec; Q <- Q + {NNODES}; NNODES <- NNODES + 1`: the one place a record is written (20_memory.md R56),
shared by PUSH and the merge step. No record exists above index 510 (R22). -/
def allocNode (n : Node) (s : State) : Except Fault State :=
  if allocIndex s < Config.nodeCap then
    .ok { s with node := s.node.write (allocIndex s) n, q := qInsert (allocIndex s) s.q, nnodes := s.nnodes + 1 }
  else .error .storeExhausted

/-- `merge_step()` (41_reduction.md R123), with the tie policy and the two free choices given. The new node's index is
`allocIndex s`. LEFT is the tree extracted first. -/
def mergeStepWith (pol : TiePolicy) (c₁ c₂ : Nat) (s : State) : Except Fault State :=
  match extractMin pol c₁ s.node s.q with
  | .error f => .error f
  | .ok a =>
    match extractMin pol c₂ s.node (qRemove a s.q) with
    | .error f => .error f
    | .ok b =>
      match readNode s.node a, readNode s.node b with
      | .ok na, .ok nb =>
        allocNode (.internal a b (na.weight + nb.weight))
          { s with q := qRemove b (qRemove a s.q), count := s.count - 1, tie := s.tie + 2 }
      | _, _ => .error .noRecord

/-- `merge_step()` of this block: its tie policy, and the next two free choices (log 2, 3). -/
def mergeStep (s : State) : Except Fault State :=
  mergeStepWith Config.tiePolicy (Config.tieChoice s.tie) (Config.tieChoice (s.tie + 1)) s

/-! ## Responses and errors -/

/-- `respond w`: `RSP <- some w` (00_scope.md R8). -/
def respond (w : Word) (s : State) : State := { s with rsp := some w }

/-- `raise E`, the one error mechanism (60_exceptions.md R171): the error's `FAULT` bit is set and its word answered; nothing
else is written. There is no handler to enter and so no return from one (R174, R175). -/
def raise (e : Error) (s : State) : State := respond (reWord e) { s with fault := setFault e s.fault }

/-- `respond RX(i)` (30_encoding.md R76). -/
def respondNode (i : Nat) (s : State) : Host.Outcome State Fault Refusal :=
  match readNode s.node i with
  | .ok n => .next (respond (rxWord i n) s)
  | .error f => .fault f

/-- A command acts only when the block accepts it, `PHASE = IDLE` and `RSP` empty; otherwise it is held and nothing changes
(70_reset_and_hazards.md R204; log 5). -/
def whenReady (s : State) (act : State → Host.Outcome State Fault Refusal) : Host.Outcome State Fault Refusal :=
  if cmdReady s then act s else .next s

/-! ## Take and Reset -/

/-- `Take` (R205): the host receives the word in `RSP`, which becomes empty; nothing else of the block changes. -/
def takeResponse (s : State) : State :=
  match s.rsp with
  | some r => { s with rsp := none, taken := s.taken ++ [r] }
  | none => s

/-- `Reset` (R200, 10_state.md R37): every piece of the block's state takes its reset value, whatever the block was doing; a
response not yet taken is lost. What is the host's, and the counter of free choices, is not the block's to reset (log 3, 16). -/
def resetBlock (s : State) : State := { State.reset with host := s.host, taken := s.taken, tie := s.tie }

end Sys2Proof.Machine
end

