-- ==== Sys2Proof/Machine/Load.lean ====
section
/-! DEFINITION. Loading the forest: CLEAR and PUSH (40_forest_load.md R100, R101). -/

namespace Sys2Proof.Machine

/-- The writes of CLEAR, before its response (R100). -/
def clearAll (s : State) : State :=
  { s with
    node := [], nnodes := 0, nleaf := 0, count := 0, q := [], total := 0#32, root := 0, rv := false, fault := 0x00#8 }

/-- CLEAR (R100): forest, store and status emptied; it answers the status word after those writes. -/
def execClear (s : State) : Host.Outcome State Fault Refusal :=
  whenReady s fun s => .next (respond (rsWord (clearAll s)) (clearAll s))

/-- PUSH (R101): Full is tested before WeightOverflow (60_exceptions.md R173); then a new Leaf at index `NNODES` enters the
forest, and it answers RX of that index. -/
def execPush (byte : Byte) (weight : Weight) (s : State) : Host.Outcome State Fault Refusal :=
  whenReady s fun s =>
    if leavesFull s then .next (raise .full s)
    else if totalOverflows s.total weight then .next (raise .weightOverflow s)
    else
      match allocNode (.leaf byte weight) s with
      | .ok t =>
        respondNode (allocIndex s)
          { t with nleaf := s.nleaf + 1, count := s.count + 1, total := s.total + weight, rv := false }
      | .error f => .fault f

end Sys2Proof.Machine
end

