-- ==== Sys2Proof/Machine/Readout.lean ====
section
/-! DEFINITION. Reading the result: RDNODE and RDSTAT (42_readout.md R150, R151). -/

namespace Sys2Proof.Machine

/-- RDNODE (R150): BadIndex when `idx >= NNODES`; else it answers the record, and no state but `RSP` changes. -/
def execRdnode (idx : IdxField) (s : State) : Host.Outcome State Fault Refusal :=
  whenReady s fun s =>
    if indexBad s idx then .next (raise .badIndex s)
    else
      match readNode s.node idx.toNat with
      | .ok n => .next (respond (rnWord n) s)
      | .error f => .fault f

/-- RDSTAT (R151): it answers the status word; it does not clear `FAULT`. -/
def execRdstat (s : State) : Host.Outcome State Fault Refusal :=
  whenReady s fun s => .next (respond (rsWord s) s)

end Sys2Proof.Machine
end

