-- ==== Sys2Proof/Machine/Reduce.lean ====
section
/-! DEFINITION. Reduction: MERGE, REDUCE and the engine's `Work` step (41_reduction.md R124, R125, 70_reset_and_hazards.md
R206). -/

namespace Sys2Proof.Machine

/-- MERGE (R124): EmptyInput on an empty forest, TooFew on one tree; else one merge step, `RV` cleared, and it answers RX of
the new node. -/
def execMerge (s : State) : Host.Outcome State Fault Refusal :=
  whenReady s fun s =>
    if s.count = 0 then .next (raise .emptyInput s)
    else if s.count = 1 then .next (raise .tooFew s)
    else
      match mergeStep s with
      | .ok t => respondNode (allocIndex s) { t with rv := false }
      | .error f => .fault f

/-- REDUCE at its acceptance (R125, R204): EmptyInput on an empty forest; else the block is BUSY, with no response yet. The
merging is done by `work` (log 12). -/
def execReduce (s : State) : Host.Outcome State Fault Refusal :=
  whenReady s fun s =>
    if s.count = 0 then .next (raise .emptyInput s)
    else .next { s with phase := .busy }

/-- The finishing `Work` step (R206): the one member of `Q` is the result; `ROOT` and `RV` are written, RX answered, and the
block is idle again. -/
def finishReduce (s : State) : Host.Outcome State Fault Refusal :=
  match s.q with
  | [r] => respondNode r { s with root := r, rv := true, phase := .idle }
  | _ => .fault .noSingleRoot

/-- `Work` (R206): one engine step of a REDUCE in progress; the loop is driven by `COUNT` (R132). -/
def work (s : State) : Host.Outcome State Fault Refusal :=
  if s.count > 1 then
    match mergeStep s with
    | .ok t => .next t
    | .error f => .fault f
  else finishReduce s

end Sys2Proof.Machine
end

