-- ==== Sys2Proof/Machine/Dispatch.lean ====
section
/-! DEFINITION. What a command does, arm by arm (30_encoding.md R73, 70_reset_and_hazards.md R204). -/

namespace Sys2Proof.Machine

def exec (i : Instr) (s : State) : Host.Outcome State Fault Refusal :=
  match i with
  | .clear => Sys2Proof.Machine.execClear s
  | .push byte weight => Sys2Proof.Machine.execPush byte weight s
  | .merge => Sys2Proof.Machine.execMerge s
  | .reduce => Sys2Proof.Machine.execReduce s
  | .rdnode idx => Sys2Proof.Machine.execRdnode idx s
  | .rdstat => Sys2Proof.Machine.execRdstat s

end Sys2Proof.Machine
end

