-- ==== Sys2Proof/Machine/Turn.lean ====
section
/-! DEFINITION. The steps of the machine (70_reset_and_hazards.md R203): `Issue`, `Take`, `Work`, `Reset`, and which of them
is taken next, from the host's coming moves (log 1, 5). -/

namespace Sys2Proof.Machine

/-- `Issue(w)` (R204): the word is decoded and the command executed; an illegal word raises IllegalCommand and is not executed
(60_exceptions.md R180). -/
def issue (w : Word) (s : State) : Host.Outcome State Fault Refusal :=
  match decode w with
  | .ok i => exec i s
  | .error _ => .next (raise .illegalCommand s)

/-- What happens when the host does nothing that the block answers: a REDUCE in progress works on (R206, and R210: the engine
does not stop by itself); otherwise nothing changes. -/
def engineTurn (s : State) : Host.Outcome State Fault Refusal :=
  match s.phase with
  | .busy => work s
  | .idle => .next s

/-- One step (R203). The host's next move is a reset: the block is reset, whatever it was doing (R200). It is a command: it is
accepted when the block is ready, otherwise it stays offered, "not lost, not queued inside the block and not an error" (R204),
and the engine has the step. It is a take: the response is taken if there is one, otherwise the host goes on waiting (R205). It
is a wait, or there is no move: the engine has the step. -/
def turn (s : State) : Host.Outcome State Fault Refusal :=
  match s.host with
  | [] => engineTurn s
  | .reset :: rest => .next (resetBlock { s with host := rest })
  | .wait :: rest => engineTurn { s with host := rest }
  | .take :: rest => if rspValid s then .next (takeResponse { s with host := rest }) else engineTurn s
  | .issue w :: rest => if cmdReady s then issue w { s with host := rest } else engineTurn s

/-- `s` with the host about to issue `w` to a block that is ready for it, before its other moves (log 7). -/
def placeCommand (s : State) (w : Word) : State :=
  { s with phase := .idle, rsp := none, host := .issue w :: s.host }

end Sys2Proof.Machine
end

