-- ==== Sys2Proof/Machine/Step.lean ====
section
/-! DEFINITION. The step function, and the placing of a command word as the next one issued (log 7). -/

namespace Sys2Proof.Machine

/-- One step of the machine (70_reset_and_hazards.md R203). -/
def step (s : State) : Host.Outcome State Fault Refusal := turn s

/-- `s` with the command of `nbits` bits and value `w` as the one `step` runs next (log 7). Every command is one 64-bit word
(30_encoding.md R70). -/
def State.withFetchWord (s : State) (nbits w : Nat) : State := placeCommand s (BitVec.ofNat 64 (w % 2 ^ nbits))

end Sys2Proof.Machine
end

