-- ==== Sys2Proof/Machine/HostStages.lean ====
section
/-! DEFINITION. The software around the block, as the spec records it (00_scope.md R9, R10, R12: "These four rules are not part
of the hardware"), and the host's way of running a list of commands (70_reset_and_hazards.md R211). No step of the machine uses
this file; statements about codes and counts do (log 14). -/

namespace Sys2Proof.Machine

/-- The errors of the stages around the block, which HFRE never raises (R13). -/
inductive HostError where
  /-- UnsupportedByteValue, of stage 1: the input holds the byte `b`, which is outside the counted range. -/
  | unsupportedByteValue (b : Byte)
  /-- DegenerateSingleSymbolTree, of the consumer of stage 4: the code of a byte is the empty string. -/
  | degenerateSingleSymbolTree
deriving DecidableEq, Repr

/-! ## Stage 1, FrequencyCounter (R9) -/

/-- "mapping from byte value to a non-negative integer count": one entry per byte value of the supported range. -/
abbrev FrequencyTable := List (Byte × Nat)

/-- "an entry for every byte value in the supported range", zero. -/
def zeroTable (range : List Byte) : FrequencyTable := range.map fun b => (b, 0)

/-- One byte of the input: its entry goes up by one; a byte without an entry is ignored. -/
def bumpCount (b : Byte) (t : FrequencyTable) : FrequencyTable :=
  t.map fun e => if e.1 = b then (e.1, e.2 + 1) else e

/-- `count(bytes)` as R9 describes it: the table initialised, the input scanned once, a byte outside the range ignored. The range is the host's choice (93_implementation_defined.md
U5). -/
def countBytes (range input : List Byte) : FrequencyTable :=
  input.foldl (fun t b => bumpCount b t) (zeroTable range)

/-- `count(bytes)` with the error of R13: the first byte outside the counted range is refused rather than dropped, as
93_implementation_defined.md U6 rules of a host model. Naming the first one is a DESIGN CHOICE (log 18). -/
def countOrReject (range input : List Byte) : Except HostError FrequencyTable :=
  match input.find? fun b => b ∉ range with
  | some b => .error (.unsupportedByteValue b)
  | none => .ok (countBytes range input)

/-! ## Stage 2, ForestBuilder (R10, R81) -/

/-- One PUSH per entry of the table, zero counts included; no commands where a count does not fit a weight (R80). -/
def buildForest (t : FrequencyTable) : Option (List Instr) :=
  assemble (.pushTable (t.map fun e => (e.1.toNat, e.2)))

/-! ## Stage 4, EncodingTableBuilder (R12, 42_readout.md R152) -/

/-- One leaf met by the walk of R12: its byte, its weight, and its code, `false` for '0' (left) and `true` for '1' (right). -/
structure CodeEntry where
  byte : Byte
  weight : Weight
  code : List Bool
deriving DecidableEq, Repr

/-- `codes(i, p)` (R12), depth first from the left. The first argument bounds the depth; children have lower indices than
their parent (10_state.md R34 V5), so `i + 1` is enough for a walk from `i`. -/
def codesFrom (m : Memory) : Nat → Nat → List Bool → List CodeEntry
  | 0, _, _ => []
  | fuel + 1, i, p =>
    match m.read i with
    | some (.leaf b w) => [{ byte := b, weight := w, code := p }]
    | some (.internal l r _) => codesFrom m fuel l (p ++ [false]) ++ codesFrom m fuel r (p ++ [true])
    | none => []

/-- `table = codes(root, "")` (R12). -/
def codes (m : Memory) (root : Nat) : List CodeEntry := codesFrom m (root + 1) root []

/-- The code table, an empty code refused (R13, 93_implementation_defined.md U7). To refuse it rather than to special-case it is
a DESIGN CHOICE between the two that R13 allows (log 18). -/
def tableOrReject (m : Memory) (root : Nat) : Except HostError (List CodeEntry) :=
  if (codes m root).any fun e => e.code = [] then .error .degenerateSingleSymbolTree else .ok (codes m root)

/-- The weighted path length, the sum over leaves of WEIGHT times depth (41_reduction.md R129). -/
def weightedPathLength (m : Memory) (root : Nat) : Nat :=
  ((codes m root).map fun e => e.weight.toNat * e.code.length).sum

/-! ## Running a list of commands (R211) -/

/-- The host's moves for `w1 ... wn`: for each word in order, issue it and take its response. -/
def runMoves (ws : List Word) : List HostMove := ws.flatMap fun w => [.issue w, .take]

end Sys2Proof.Machine
end

