-- ==== Sys2Proof/Safety.lean ====
section
/-! DEFINITION. The terms claims are stated in: the block's state apart from the host's; extraction and the steps of the machine
as the relations the spec gives (41_reduction.md R121, R122, R123, 70_reset_and_hazards.md R203); the trees in the store; the
invariant of 10_state.md R34; what a choice among ties may change (R129). -/

namespace Sys2Proof.Machine

/-- The block's own state (10_state.md R20): `s` with the model's own three fields blanked. -/
def block (s : State) : State := { s with host := [], taken := [], tie := 0 }

/-- The same state of the block, field by field of R20. -/
abbrev SameBlock (s t : State) : Prop := block s = block t

/-! ## Extraction and the merge step as relations -/

/-- `extract_min_ANY(S, i)` (R121): `i` is in `S`, and its weight is at most that of every member. -/
def MinOf (m : Memory) (S : List Nat) (i : Nat) : Prop :=
  i ∈ S ∧ ∃ n, m.read i = some n ∧ ∀ j ∈ S, ∃ k, m.read j = some k ∧ n.weight ≤ k.weight

/-- `extract_min_FIFO(S) = i` (R122): the least index among the members of least weight. -/
def MinOfFifo (m : Memory) (S : List Nat) (i : Nat) : Prop :=
  MinOf m S i ∧ ∀ j, MinOf m S j → i ≤ j

/-- The state a merge step leaves when it extracts `a`, then `b`, with weights that sum to `w` (R123). -/
def mergedState (a b : Nat) (w : Weight) (s : State) : State :=
  { s with
    node := s.node.write s.nnodes (.internal a b w)
    q := qInsert s.nnodes (qRemove b (qRemove a s.q))
    nnodes := s.nnodes + 1
    count := s.count - 1 }

/-- One merge step of R123 under `ANY`, as a relation between states of the block. -/
def MergeRel (s t : State) : Prop :=
  ∃ a b na nb, MinOf s.node s.q a ∧ MinOf s.node (qRemove a s.q) b ∧
    s.node.read a = some na ∧ s.node.read b = some nb ∧
    SameBlock t (mergedState a b (na.weight + nb.weight) s)

/-- `n` merge steps in a row. -/
inductive MergeChain : Nat → State → State → Prop where
  | done {s t : State} (h : SameBlock t s) : MergeChain 0 s t
  | more {n : Nat} {s u t : State} (h : MergeRel s u) (r : MergeChain n u t) : MergeChain (n + 1) s t

/-- The state the finishing `Work` step leaves, `r` being the one member of `Q` and `n` its record (R206). -/
def finishedState (r : Nat) (n : Node) (s : State) : State :=
  { s with root := r, rv := true, rsp := some (rxWord r n), phase := .idle }

/-! ## The transition system of R203 -/

/-- The four kinds of step (R203). -/
inductive Event where
  | issue (w : Word)
  | take
  | work
  | reset
deriving DecidableEq, Repr

/-- `Issue` of a MERGE on at least two trees: a merge step, `RV` cleared, RX of the new node answered (R124). -/
def MergeIssue (s t : State) : Prop :=
  ∃ u n, MergeRel s u ∧ u.node.read s.nnodes = some n ∧
    SameBlock t (respond (rxWord s.nnodes n) { u with rv := false })

/-- The step `e` may take the block from `s` to `t` (R203 to R206, R200), under `TIE_POLICY` = `ANY`: a relation, since a merge
step with ties has several successors. -/
def Allowed (s : State) (e : Event) (t : State) : Prop :=
  match e with
  | .issue w =>
    s.phase = .idle ∧ s.rsp = none ∧
      match decode w with
      | .error _ => SameBlock t (raise .illegalCommand s)
      | .ok .merge =>
        if s.count = 0 then SameBlock t (raise .emptyInput s)
        else if s.count = 1 then SameBlock t (raise .tooFew s)
        else MergeIssue s t
      | .ok .reduce =>
        if s.count = 0 then SameBlock t (raise .emptyInput s) else SameBlock t { s with phase := .busy }
      | .ok i => ∃ u, exec i s = .next u ∧ SameBlock t u
  | .take => s.rsp ≠ none ∧ SameBlock t { s with rsp := none }
  | .work =>
    s.phase = .busy ∧
      if s.count > 1 then MergeRel s t
      else ∃ r n, s.q = [r] ∧ s.node.read r = some n ∧ SameBlock t (finishedState r n s)
  | .reset => SameBlock t State.reset

/-- The step `e` is enabled (R203): some state may follow. -/
def Enabled (s : State) (e : Event) : Prop := ∃ t, Allowed s e t

/-- Several members of `S` have the least weight (R121). -/
def Tied (m : Memory) (S : List Nat) : Prop := ∃ i j, MinOf m S i ∧ MinOf m S j ∧ i ≠ j

/-- A merge step has weights tied: at its first extraction, or at its second (R123). -/
def MergeTied (s : State) : Prop := Tied s.node s.q ∨ ∃ a, MinOf s.node s.q a ∧ Tied s.node (qRemove a s.q)

/-- A step that has several successors under `ANY` (R203): with tied weights, a merging `Work` step and the `Issue` of a MERGE
that merges. -/
def HasChoice (s : State) (e : Event) : Prop :=
  2 ≤ s.count ∧ MergeTied s ∧ (e = .work ∨ ∃ w, e = .issue w ∧ decode w = .ok .merge)

/-- Two outcomes agree: both are next states, related by `R`, or both are the same stop. -/
def OutcomesAgree (R : State → State → Prop) : Host.Outcome State Fault Refusal → Host.Outcome State Fault Refusal → Prop
  | .next t, .next u => R t u
  | .fault f, .fault g => f = g
  | .refused r, .refused p => r = p
  | _, _ => False

/-- `n` steps of the machine, or the first stop. -/
def runs : Nat → State → Host.Outcome State Fault Refusal
  | 0, s => .next s
  | n + 1, s =>
    match step s with
    | .next t => runs n t
    | stop => stop

/-! ## Trees in the store -/

/-- The WEIGHT of the record at `i` as a number, 0 where there is no record (used only of indices that have one). -/
def weightAt (m : Memory) (i : Nat) : Nat :=
  match m.read i with
  | some n => n.weight.toNat
  | none => 0

/-- The Leaf records under node `i`, from the left; the first argument bounds the depth. -/
def leavesFrom (m : Memory) : Nat → Nat → List Nat
  | 0, _ => []
  | fuel + 1, i =>
    match m.read i with
    | some (.leaf _ _) => [i]
    | some (.internal l r _) => leavesFrom m fuel l ++ leavesFrom m fuel r
    | none => []

/-- The Leaf records under node `i` (R34 V5: `i + 1` is deep enough). -/
def leavesUnder (m : Memory) (i : Nat) : List Nat := leavesFrom m (i + 1) i

/-- The nodes under node `i`, `i` the first; the first argument bounds the depth. -/
def nodesFrom (m : Memory) : Nat → Nat → List Nat
  | 0, _ => []
  | fuel + 1, i =>
    match m.read i with
    | some (.leaf _ _) => [i]
    | some (.internal l r _) => i :: (nodesFrom m fuel l ++ nodesFrom m fuel r)
    | none => []

/-- The nodes under node `i`, itself among them. -/
def nodesUnder (m : Memory) (i : Nat) : List Nat := nodesFrom m (i + 1) i

/-- The record is a Leaf. -/
def Node.isLeaf : Node → Bool
  | .leaf _ _ => true
  | .internal _ _ _ => false

/-- The indices of the Leaf records, rising. -/
def leafIndices (m : Memory) : List Nat := (m.filter fun e => e.2.isLeaf).map Prod.fst

/-- The indices of the Internal records, rising. -/
def internalIndices (m : Memory) : List Nat := (m.filter fun e => !e.2.isLeaf).map Prod.fst

/-- Node `k` is an Internal record that has `i` as a child. -/
def IsParent (m : Memory) (k i : Nat) : Prop := ∃ l r w, m.read k = some (.internal l r w) ∧ (l = i ∨ r = i)

/-! ## The invariant -/

/-- 10_state.md R34, V1 to V11 in its order, over the canonical forms of the store and of `Q`, with R22 (a record has a value
exactly below `NNODES`), R24 (`NLEAF` counts the Leaf records), R29 (`FAULT` bits 6 and 7 are 0) and R20 (the range of
`ROOT`). -/
structure StateInv (s : State) : Prop where
  memWf : s.node.wf
  queueWf : qWf s.q
  stored : ∀ i, (s.node.read i).isSome ↔ i < s.nnodes
  leaves : s.nleaf = (leafIndices s.node).length
  v1_count : s.count = s.q.length
  v1_members : ∀ i ∈ s.q, i < s.nnodes
  v2_nodes : s.nnodes = s.nleaf + (internalIndices s.node).length
  v2_count : s.count + s.nnodes = 2 * s.nleaf
  v3_nleaf : s.nleaf ≤ 256
  v3_nnodes : s.nnodes ≤ 511
  v3_count : s.count ≤ 256
  v3_some : 1 ≤ s.nleaf → 1 ≤ s.count
  v4_owned : ∀ i < s.nnodes,
    (i ∈ s.q ∧ ∀ k, ¬ IsParent s.node k i) ∨ (i ∉ s.q ∧ ∃ k, IsParent s.node k i ∧ ∀ j, IsParent s.node j i → j = k)
  v4_distinct : ∀ k l r w, s.node.read k = some (.internal l r w) → l ≠ r
  v5 : ∀ k l r w, s.node.read k = some (.internal l r w) → l < k ∧ r < k
  v6_sum : ∀ k l r w, s.node.read k = some (.internal l r w) → w.toNat = weightAt s.node l + weightAt s.node r
  v6_under : ∀ i < s.nnodes, weightAt s.node i = ((leavesUnder s.node i).map (weightAt s.node)).sum
  v6_queue : (s.q.map (weightAt s.node)).sum = s.total.toNat
  v6_leaves : ((leafIndices s.node).map (weightAt s.node)).sum = s.total.toNat
  v7 : ∀ k l r w, s.node.read k = some (.internal l r w) → weightAt s.node l ≤ weightAt s.node r
  v8 : s.rv = true → s.count = 1 ∧ s.q = [s.root]
  v9 : s.phase = .busy → s.rsp = none ∧ 1 ≤ s.count
  v10 : (s.q.flatMap (leavesUnder s.node)).Perm (leafIndices s.node)
  v11 : s.count = 1 → s.q = [s.nnodes - 1]
  faultHigh : s.fault.getLsbD 6 = false ∧ s.fault.getLsbD 7 = false
  rootRange : s.root ≤ 510

/-- The states the machine can be in, whatever the host does: from reset with any moves planned, by any number of steps. -/
inductive Reachable : State → Prop where
  | start (moves : List HostMove) : Reachable { State.reset with host := moves }
  | step {s t : State} (r : Reachable s) (h : step s = .next t) : Reachable t

/-- A safe step: it does not stop the machine, it ends in a next state. -/
def Runs (s : State) : Prop := ∃ t, step s = .next t

/-! ## What ties can change (R129) -/

/-- What of a record no tie-break can change: its TAG, its WEIGHT, and a Leaf's BYTE. -/
def Node.tieless : Node → Option Byte × Weight
  | .leaf b w => (some b, w)
  | .internal _ _ w => (none, w)

/-- Two states of the block that may differ only in what R129 says ties can change: the LEFT and RIGHT of Internal records, and
which trees of equal weight are still in `Q`. -/
structure SameUpToTies (s t : State) : Prop where
  records : s.node.map (fun e => (e.1, e.2.tieless)) = t.node.map (fun e => (e.1, e.2.tieless))
  queue : (s.q.map (weightAt s.node)).Perm (t.q.map (weightAt t.node))
  nnodes : s.nnodes = t.nnodes
  nleaf : s.nleaf = t.nleaf
  count : s.count = t.count
  total : s.total = t.total
  root : s.root = t.root
  rv : s.rv = t.rv
  fault : s.fault = t.fault
  phase : s.phase = t.phase
  rsp : s.rsp = t.rsp

/-! ## The bytes of leaves (40_forest_load.md R105) -/

/-- A record with a Leaf's BYTE blanked. -/
def Node.blankByte : Node → Node
  | .leaf _ w => .leaf 0#8 w
  | .internal l r w => .internal l r w

/-- The whole state with every Leaf's BYTE blanked. -/
def blankBytes (s : State) : State := { s with node := s.node.map fun e => (e.1, e.2.blankByte) }

end Sys2Proof.Machine
end

