-- ==== Sys2Proof/Certificates/Slice0/Obligations.lean ====
section
/-! DEFINITION. The statements for the provers. Each follows numbered rules of spec/; its docstring names them. A premise `StateInv s`
(10_state.md R34) rules out states no run reaches; that every step keeps it is a statement of its own. -/

open Sys2Proof Sys2Proof.Machine

/-! ## Reset, the invariant, and the machine as a whole -/

/-- R37: what reset leaves, what CLEAR leaves, and the status word right after reset. -/
def Obligations.ResetAndClearLeaveTheResetValues : Prop :=
  ((∀ i, State.reset.node.read i = none) ∧ State.reset.nnodes = 0 ∧ State.reset.nleaf = 0 ∧ State.reset.count = 0 ∧
    State.reset.q = [] ∧ State.reset.total = 0#32 ∧ State.reset.root = 0 ∧ State.reset.rv = false ∧
    State.reset.fault = 0x00#8 ∧ State.reset.phase = .idle ∧ State.reset.rsp = none) ∧
  (∀ s, cmdReady s = true →
    ∃ t, exec .clear s = .next t ∧ SameBlock t { State.reset with rsp := some 0x0000000000000000#64 }) ∧
  exec .rdstat State.reset = .next { State.reset with rsp := some 0x0000000000000000#64 }

/-- R34: the state after reset meets the invariant, whatever moves the host plans. -/
def Obligations.ResetMeetsTheInvariant : Prop :=
  ∀ moves, StateInv { State.reset with host := moves }

/-- R34: every step keeps V1 to V11, from every state that meets them. -/
def Obligations.EveryStepKeepsTheInvariant : Prop :=
  ∀ s t, StateInv s → step s = .next t → StateInv t

/-- R34: V1 to V11 hold in every state reachable from reset. -/
def Obligations.ReachableStatesMeetTheInvariant : Prop :=
  ∀ s, Reachable s → StateInv s

/-- R203, R207 item 1, R131, R125: nothing in the spec stops the machine; a state that meets the invariant always has a next
state. -/
def Obligations.NoStepStopsTheMachine : Prop :=
  ∀ s, StateInv s → Runs s

/-- R203 to R206, R200: every step of the machine is a stutter of the block or one the transition system of R203 allows under
`ANY`, and it is the host's move that decides which. -/
def Obligations.EveryStepIsAnAllowedStep : Prop :=
  ∀ s t, step s = .next t →
    (SameBlock t s ∧ t.taken = s.taken) ∨
    (∃ w, Allowed s (.issue w) t ∧ s.host = .issue w :: t.host ∧ t.taken = s.taken) ∨
    (Allowed s .take t ∧ s.host = .take :: t.host ∧ ∃ r, s.rsp = some r ∧ t.taken = s.taken ++ [r]) ∨
    (Allowed s .work t ∧ (∀ rest, s.host ≠ .reset :: rest) ∧ t.taken = s.taken) ∨
    (Allowed s .reset t ∧ s.host = .reset :: t.host ∧ t.taken = s.taken)

/-- R203: `Reset` is always enabled; exactly one of `Issue`, `Take`, `Work` is; a merging `Work` step and the `Issue` of a
merging MERGE have several successors when weights are tied; every other step has at most one. -/
def Obligations.ExactlyOneKindOfStepIsEnabled : Prop :=
  (∀ s, StateInv s → Enabled s .reset ∧
    (((∀ w, Enabled s (.issue w)) ∧ ¬ Enabled s .take ∧ ¬ Enabled s .work) ∨
     ((∀ w, ¬ Enabled s (.issue w)) ∧ Enabled s .take ∧ ¬ Enabled s .work) ∨
     ((∀ w, ¬ Enabled s (.issue w)) ∧ ¬ Enabled s .take ∧ Enabled s .work)) ∧
    ((∀ w, Enabled s (.issue w)) ↔ s.phase = .idle ∧ s.rsp = none) ∧
    (Enabled s .take ↔ s.rsp ≠ none) ∧
    (Enabled s .work ↔ s.phase = .busy)) ∧
  (∀ s e t u, Allowed s e t → Allowed s e u → HasChoice s e ∨ SameBlock t u) ∧
  (∀ s e, StateInv s → Enabled s e → HasChoice s e → ∃ t u, Allowed s e t ∧ Allowed s e u ∧ ¬ SameBlock t u)

/-! ## Words -/

/-- R79: decoding as the table of fields, encoding as shifts, and the two round trips. -/
def Obligations.DecodeAndEncodeAgree : Prop :=
  (∀ i : Instr, i.wellFormed = true → decode (encode i) = .ok i) ∧
  (∀ w i, decode w = .ok i → encode i = w) ∧
  (∀ w : Word,
    (decode w = .ok .clear ↔ (w.extractLsb 63 60).toNat = 1 ∧ (w.extractLsb 59 0).toNat = 0) ∧
    (∀ b x, decode w = .ok (.push b x) ↔ (w.extractLsb 63 60).toNat = 2 ∧ (w.extractLsb 59 40).toNat = 0 ∧
      b.toNat = (w.extractLsb 39 32).toNat ∧ x.toNat = (w.extractLsb 31 0).toNat) ∧
    (decode w = .ok .merge ↔ (w.extractLsb 63 60).toNat = 3 ∧ (w.extractLsb 59 0).toNat = 0) ∧
    (decode w = .ok .reduce ↔ (w.extractLsb 63 60).toNat = 4 ∧ (w.extractLsb 59 0).toNat = 0) ∧
    (∀ k, decode w = .ok (.rdnode k) ↔ (w.extractLsb 63 60).toNat = 5 ∧ (w.extractLsb 59 44).toNat = 0 ∧
      (w.extractLsb 31 0).toNat = 0 ∧ k.toNat = (w.extractLsb 43 32).toNat) ∧
    (decode w = .ok .rdstat ↔ (w.extractLsb 63 60).toNat = 6 ∧ (w.extractLsb 59 0).toNat = 0)) ∧
  encode .clear = 1#64 <<< 60 ∧ encode .merge = 3#64 <<< 60 ∧ encode .reduce = 4#64 <<< 60 ∧ encode .rdstat = 6#64 <<< 60 ∧
  (∀ b x, encode (.push b x) = (2#64 <<< 60) ||| (b.setWidth 64 <<< 32) ||| x.setWidth 64) ∧
  (∀ k, encode (.rdnode k) = (5#64 <<< 60) ||| (k.setWidth 64 <<< 32))

/-- R73: a word is a command of a row exactly when `w AND mask = match`; it matches at most one row; a word that matches none
is illegal. -/
def Obligations.OpcodeTableSelectsTheCommand : Prop :=
  (∀ w i, w &&& maskOf i = matchOf i ↔ ∃ j, decode w = .ok j ∧ matchOf j = matchOf i) ∧
  (∀ w i j, w &&& maskOf i = matchOf i → w &&& maskOf j = matchOf j → matchOf i = matchOf j) ∧
  (∀ w, (∀ i, w &&& maskOf i ≠ matchOf i) ↔ ∃ e, decode w = .error e)

/-- R74, R180: a word with `OP` = 0, `OP` in 7 to 15, or a must-be-zero bit set under a legal `OP` is accepted, is not
executed, answers 0x6000000000000000 and sets `FAULT` bit 5; nothing else of the block changes. -/
def Obligations.IllegalWordsAreNotExecuted : Prop :=
  (∀ w : Word, (∃ e, decode w = .error e) ↔
    (w.extractLsb 63 60).toNat = 0 ∨ 7 ≤ (w.extractLsb 63 60).toNat ∨
    (((w.extractLsb 63 60).toNat = 1 ∨ (w.extractLsb 63 60).toNat = 3 ∨ (w.extractLsb 63 60).toNat = 4 ∨
      (w.extractLsb 63 60).toNat = 6) ∧ (w.extractLsb 59 0).toNat ≠ 0) ∨
    ((w.extractLsb 63 60).toNat = 2 ∧ (w.extractLsb 59 40).toNat ≠ 0) ∨
    ((w.extractLsb 63 60).toNat = 5 ∧ ((w.extractLsb 59 44).toNat ≠ 0 ∨ (w.extractLsb 31 0).toNat ≠ 0))) ∧
  (∀ s w rest, (∃ e, decode w = .error e) → cmdReady s = true → s.host = .issue w :: rest →
    step s = .next { s with fault := s.fault ||| 0x20#8, rsp := some 0x6000000000000000#64, host := rest })

/-- Vectors of 95_test_vectors.md 2.1: a sanity check that a few words decode to what they stand for. -/
def Obligations.SampleWordsDecode : Prop :=
  decode 0x1000000000000000#64 = .ok .clear ∧
  decode 0x2000006100000003#64 = .ok (.push 0x61#8 3#32) ∧
  decode 0x3000000000000000#64 = .ok .merge ∧
  decode 0x4000000000000000#64 = .ok .reduce ∧
  decode 0x50000FFF00000000#64 = .ok (.rdnode 4095#12) ∧
  decode 0x6000000000000000#64 = .ok .rdstat ∧
  decode 0x2000010100000001#64 = .error (.mbzSet 2#4)

/-- R76: the bits of the four response formats. -/
def Obligations.ResponseFormats : Prop :=
  (∀ e, ((reWord e).extractLsb 63 60).toNat = e.code.toNat ∧ ((reWord e).extractLsb 59 0).toNat = 0) ∧
  (reWord .emptyInput = 0x1000000000000000#64 ∧ reWord .tooFew = 0x2000000000000000#64 ∧
    reWord .full = 0x3000000000000000#64 ∧ reWord .weightOverflow = 0x4000000000000000#64 ∧
    reWord .badIndex = 0x5000000000000000#64 ∧ reWord .illegalCommand = 0x6000000000000000#64) ∧
  (∀ i n, i < 4096 → ((rxWord i n).extractLsb 63 60).toNat = 0 ∧
    ((rxWord i n).extractLsb 59 56).toNat = (if n.isLeaf then 0 else 1) ∧ ((rxWord i n).extractLsb 55 44).toNat = 0 ∧
    ((rxWord i n).extractLsb 43 32).toNat = i ∧ ((rxWord i n).extractLsb 31 0).toNat = n.weight.toNat) ∧
  (∀ b x, ((rnWord (.leaf b x)).extractLsb 63 60).toNat = 0 ∧ ((rnWord (.leaf b x)).extractLsb 59 56).toNat = 0 ∧
    ((rnWord (.leaf b x)).extractLsb 55 40).toNat = 0 ∧ ((rnWord (.leaf b x)).extractLsb 39 32).toNat = b.toNat ∧
    ((rnWord (.leaf b x)).extractLsb 31 0).toNat = x.toNat) ∧
  (∀ l r x, l < 4096 → r < 4096 →
    ((rnWord (.internal l r x)).extractLsb 63 60).toNat = 0 ∧ ((rnWord (.internal l r x)).extractLsb 59 56).toNat = 1 ∧
    ((rnWord (.internal l r x)).extractLsb 55 44).toNat = l ∧ ((rnWord (.internal l r x)).extractLsb 43 32).toNat = r ∧
    ((rnWord (.internal l r x)).extractLsb 31 0).toNat = x.toNat) ∧
  (∀ s, s.root < 4096 → s.nnodes < 4096 → s.nleaf < 4096 → s.count < 4096 →
    ((rsWord s).extractLsb 63 60).toNat = 0 ∧ ((rsWord s).extractLsb 59 52).toNat = s.fault.toNat ∧
    ((rsWord s).extractLsb 51 49).toNat = 0 ∧ ((rsWord s).extractLsb 48 48).toNat = s.rv.toNat ∧
    ((rsWord s).extractLsb 47 36).toNat = s.root ∧ ((rsWord s).extractLsb 35 24).toNat = s.nnodes ∧
    ((rsWord s).extractLsb 23 12).toNat = s.nleaf ∧ ((rsWord s).extractLsb 11 0).toNat = s.count)

/-- R76, U14: a host that reads an RN word gets back the record, for every record whose children are node indices. -/
def Obligations.RecordWordReadsBack : Prop :=
  (∀ b x, readRn (rnWord (.leaf b x)) = some (.leaf b x)) ∧
  (∀ l r x, l < 4096 → r < 4096 → readRn (rnWord (.internal l r x)) = some (.internal l r x)) ∧
  (∀ w n, readRn w = some n → rnWord n = w)

/-! ## The commands -/

/-- R100: the word of CLEAR, and CLEAR in every state that accepts it. -/
def Obligations.ClearEmptiesForestStoreAndStatus : Prop :=
  decode 0x1000000000000000#64 = .ok .clear ∧
  ∀ s, cmdReady s = true →
    exec .clear s = .next { s with
      node := [], nnodes := 0, nleaf := 0, count := 0, q := [], total := 0#32, root := 0, rv := false, fault := 0x00#8,
      rsp := some 0x0000000000000000#64 }

/-- R101, R173: the word of PUSH; PUSH answers Full, else WeightOverflow (the sum taken in the integers), else makes the leaf;
a free record always exists when the checks pass; a zero weight never overflows. -/
def Obligations.PushMakesALeaf : Prop :=
  (∀ (b : Byte) (x : Weight) (w : Word), decode w = .ok (.push b x) ↔ w.toNat = 2 * 2 ^ 60 + b.toNat * 2 ^ 32 + x.toNat) ∧
  ∀ (b : Byte) (x : Weight) (s : State), cmdReady s = true →
    (s.nleaf = 256 →
      exec (.push b x) s = .next { s with fault := s.fault ||| 0x04#8, rsp := some 0x3000000000000000#64 }) ∧
    (s.nleaf ≠ 256 → s.total.toNat + x.toNat > 2 ^ 32 - 1 →
      exec (.push b x) s = .next { s with fault := s.fault ||| 0x08#8, rsp := some 0x4000000000000000#64 }) ∧
    (s.nleaf ≠ 256 → s.total.toNat + x.toNat ≤ 2 ^ 32 - 1 → s.nnodes ≤ 510 →
      (s.total + x).toNat = s.total.toNat + x.toNat ∧
      exec (.push b x) s = .next { s with
        node := s.node.write s.nnodes (.leaf b x), q := qInsert s.nnodes s.q, nnodes := s.nnodes + 1, nleaf := s.nleaf + 1,
        count := s.count + 1, total := s.total + x, rv := false, rsp := some (rxWord s.nnodes (.leaf b x)) }) ∧
    (StateInv s → s.nleaf ≠ 256 → s.nnodes ≤ 509) ∧
    (x = 0#32 → s.total.toNat + x.toNat ≤ 2 ^ 32 - 1)

/-- R124: the word of MERGE; MERGE answers EmptyInput or TooFew and changes nothing else, or does one merge step, clears `RV`
and answers RX of the new node, which is the Internal record at index `NNODES`; `NNODES <= 510` before any merge step. -/
def Obligations.MergeDoesOneMergeStep : Prop :=
  decode 0x3000000000000000#64 = .ok .merge ∧
  (∀ s, cmdReady s = true → s.count = 0 →
    exec .merge s = .next { s with fault := s.fault ||| 0x01#8, rsp := some 0x1000000000000000#64 }) ∧
  (∀ s, cmdReady s = true → s.count = 1 →
    exec .merge s = .next { s with fault := s.fault ||| 0x02#8, rsp := some 0x2000000000000000#64 }) ∧
  (∀ s, StateInv s → cmdReady s = true → 2 ≤ s.count → s.nnodes ≤ 510 ∧
    ∃ a b na nb t, MinOf s.node s.q a ∧ MinOf s.node (qRemove a s.q) b ∧ s.node.read a = some na ∧ s.node.read b = some nb ∧
      exec .merge s = .next t ∧ SameBlock t { s with
        node := s.node.write s.nnodes (.internal a b (na.weight + nb.weight))
        q := qInsert s.nnodes (qRemove b (qRemove a s.q)), nnodes := s.nnodes + 1, count := s.count - 1, rv := false
        rsp := some (rxWord s.nnodes (.internal a b (na.weight + nb.weight))) })

/-- R125, R204: the word of REDUCE; REDUCE at acceptance answers EmptyInput and changes nothing else, or makes the block BUSY
with no response. -/
def Obligations.ReduceIsAcceptedOrRaisesEmptyInput : Prop :=
  decode 0x4000000000000000#64 = .ok .reduce ∧
  ∀ s, cmdReady s = true →
    (s.count = 0 → exec .reduce s = .next { s with fault := s.fault ||| 0x01#8, rsp := some 0x1000000000000000#64 }) ∧
    (1 ≤ s.count → exec .reduce s = .next { s with phase := .busy })

/-- R150: the word of RDNODE; RDNODE answers BadIndex when `idx >= NNODES`, all 12 bits compared, else the record; a record in
use always exists. -/
def Obligations.RdnodeAnswersTheRecord : Prop :=
  (∀ (k : IdxField) (w : Word), decode w = .ok (.rdnode k) ↔ w.toNat = 5 * 2 ^ 60 + k.toNat * 2 ^ 32) ∧
  ∀ (k : IdxField) (s : State), cmdReady s = true →
    (s.nnodes ≤ k.toNat →
      exec (.rdnode k) s = .next { s with fault := s.fault ||| 0x10#8, rsp := some 0x5000000000000000#64 }) ∧
    (∀ n, k.toNat < s.nnodes → s.node.read k.toNat = some n →
      exec (.rdnode k) s = .next { s with rsp := some (rnWord n) }) ∧
    (StateInv s → k.toNat < s.nnodes → ∃ n, s.node.read k.toNat = some n)

/-- R151: the word of RDSTAT; RDSTAT answers the status word, `RC=0 | FAULT<<52 | RV<<48 | ROOT<<36 | NNODES<<24 | NLEAF<<12 |
COUNT`, and changes nothing else. -/
def Obligations.RdstatAnswersTheStatusWord : Prop :=
  decode 0x6000000000000000#64 = .ok .rdstat ∧
  ∀ s, cmdReady s = true → exec .rdstat s = .next { s with rsp := some (rsWord s) } ∧
    (s.root < 4096 → s.nnodes < 4096 → s.nleaf < 4096 → s.count < 4096 →
      (rsWord s).toNat = s.fault.toNat * 2 ^ 52 + s.rv.toNat * 2 ^ 48 + s.root * 2 ^ 36 + s.nnodes * 2 ^ 24 + s.nleaf * 2 ^ 12 +
        s.count)

/-! ## Errors -/

/-- R170, R173: which error each command raises and exactly when, and the six codes. (A `Work` step of a REDUCE raises none.)
-/
def Obligations.ErrorsAreRaisedExactlyWhenTheirConditionHolds : Prop :=
  (∀ s, cmdReady s = true →
    (∀ e, exec .clear s ≠ .next (raise e s)) ∧
    (∀ e, exec .rdstat s ≠ .next (raise e s)) ∧
    (∀ b x e, exec (.push b x) s = .next (raise e s) ↔
      (e = .full ∧ s.nleaf = 256) ∨ (e = .weightOverflow ∧ s.nleaf ≠ 256 ∧ s.total.toNat + x.toNat > 2 ^ 32 - 1)) ∧
    (∀ e, exec .merge s = .next (raise e s) ↔ (e = .emptyInput ∧ s.count = 0) ∨ (e = .tooFew ∧ s.count = 1)) ∧
    (∀ e, exec .reduce s = .next (raise e s) ↔ e = .emptyInput ∧ s.count = 0) ∧
    (∀ k e, exec (.rdnode k) s = .next (raise e s) ↔ e = .badIndex ∧ s.nnodes ≤ k.toNat) ∧
    (∀ w, issue w s = .next (raise .illegalCommand s) ↔ ∃ r, decode w = .error r)) ∧
  (∀ s t, work s = .next t → t.fault = s.fault ∧ ∀ e, t.rsp = some (reWord e) → s.rsp = some (reWord e)) ∧
  (Error.emptyInput.code.toNat = 1 ∧ Error.tooFew.code.toNat = 2 ∧ Error.full.code.toNat = 3 ∧
    Error.weightOverflow.code.toNat = 4 ∧ Error.badIndex.code.toNat = 5 ∧ Error.illegalCommand.code.toNat = 6)

/-- R171: what `raise` writes and that it writes nothing else; whatever command answers with a nonzero `RC` did exactly a
`raise`; and the same command fails the same way again. -/
def Obligations.ErrorsArePrecise : Prop :=
  (∀ e s, (∀ j < 8, (raise e s).fault.getLsbD j = (s.fault.getLsbD j || decide (j + 1 = e.code.toNat))) ∧
    raise e s = { s with fault := (raise e s).fault, rsp := some (BitVec.ofNat 64 (e.code.toNat * 2 ^ 60)) }) ∧
  (∀ i s t r, cmdReady s = true → exec i s = .next t → t.rsp = some r → rcOf r ≠ 0#4 → ∃ e, t = raise e s) ∧
  (∀ i s e, cmdReady s = true → exec i s = .next (raise e s) →
    exec i (takeResponse (raise e s)) = .next (raise e (takeResponse (raise e s))))

/-- R29: an error sets its bit; a `FAULT` bit once set stays set but for CLEAR and reset, which clear all; a bit newly set is
that of the error just answered; bits 6 and 7 stay 0; the status word shows the eight bits. -/
def Obligations.FaultBitsAreSticky : Prop :=
  (∀ e s, (raise e s).fault.getLsbD (e.code.toNat - 1) = true) ∧
  (∀ s t, cmdReady s = true → exec .clear s = .next t → t.fault = 0x00#8) ∧ (∀ s, (resetBlock s).fault = 0x00#8) ∧
  (∀ s t j, step s = .next t → s.fault.getLsbD j = true →
    t.fault.getLsbD j = true ∨ (∃ rest, s.host = .reset :: rest) ∨
      (∃ w rest, s.host = .issue w :: rest ∧ decode w = .ok .clear ∧ cmdReady s = true ∧ t.fault = 0x00#8)) ∧
  (∀ s t j, step s = .next t → s.fault.getLsbD j = false → t.fault.getLsbD j = true →
    ∃ e, j + 1 = e.code.toNat ∧ t.rsp = some (reWord e) ∧ t.fault = setFault e s.fault) ∧
  (∀ s t, step s = .next t → s.fault.getLsbD 6 = false → s.fault.getLsbD 7 = false →
    t.fault.getLsbD 6 = false ∧ t.fault.getLsbD 7 = false) ∧
  (∀ s, ((rsWord s).extractLsb 59 52).toNat = s.fault.toNat)

/-! ## Extraction, the merge step, REDUCE -/

/-- R121: under `ANY` what is extracted is a member of least weight; every member of least weight is extracted by some choice;
and from a non-empty set of records something is. -/
def Obligations.ExtractMinAnyYieldsSomeLeastMember : Prop :=
  (∀ c m S i, extractMin .any c m S = .ok i → MinOf m S i) ∧
  (∀ m S i, MinOf m S i → ∃ c, extractMin .any c m S = .ok i) ∧
  (∀ m S i c, MinOf m S i → (∀ j, MinOf m S j → j = i) → extractMin .any c m S = .ok i) ∧
  (∀ c m S, S ≠ [] → (∀ i ∈ S, (m.read i).isSome) → ∃ i, extractMin .any c m S = .ok i)

/-- R122: under `FIFO` the least index among the members of least weight is extracted, whatever the choice; it is one of the
behaviours `ANY` admits; and a merge step is a function of the state. -/
def Obligations.ExtractMinFifoYieldsTheLeastIndex : Prop :=
  (∀ c m S i, extractMin .fifo c m S = .ok i ↔ MinOfFifo m S i) ∧
  (∀ c m S i, extractMin .fifo c m S = .ok i → ∃ d, extractMin .any d m S = .ok i) ∧
  (∀ c₁ c₂ d₁ d₂ s, mergeStepWith .fifo c₁ c₂ s = mergeStepWith .fifo d₁ d₂ s)

/-- R123, R131: a merge step, under either policy and every choice: the first tree extracted is LEFT, the second RIGHT; they
are distinct; LEFT is not heavier; the sum does not wrap; only `NODE[k]`, `Q`, `NNODES`, `COUNT` are written; the new node is
in `Q`; under `FIFO` each is the least index among its rivals (R122); and under `ANY` every pair R121 allows is merged by some
choice. -/
def Obligations.MergeStepJoinsTheTwoLightest : Prop :=
  (∀ pol c₁ c₂ s, StateInv s → 2 ≤ s.count → ∃ a b na nb t,
    MinOf s.node s.q a ∧ MinOf s.node (qRemove a s.q) b ∧ s.node.read a = some na ∧ s.node.read b = some nb ∧
    a ≠ b ∧ na.weight ≤ nb.weight ∧ (na.weight + nb.weight).toNat = na.weight.toNat + nb.weight.toNat ∧
    (pol = .fifo → MinOfFifo s.node s.q a ∧ MinOfFifo s.node (qRemove a s.q) b) ∧
    mergeStepWith pol c₁ c₂ s = .ok t ∧ SameBlock t { s with
      node := s.node.write s.nnodes (.internal a b (na.weight + nb.weight))
      q := qInsert s.nnodes (qRemove b (qRemove a s.q)), nnodes := s.nnodes + 1, count := s.count - 1 }) ∧
  (∀ s a b, StateInv s → 2 ≤ s.count → MinOf s.node s.q a → MinOf s.node (qRemove a s.q) b →
    ∃ c₁ c₂ t w, mergeStepWith .any c₁ c₂ s = .ok t ∧ t.node.read s.nnodes = some (.internal a b w) ∧ s.nnodes ∈ t.q)

/-- R206: a `Work` step merges while `COUNT > 1`, else it finishes: `ROOT`, `RV`, the response, and IDLE. -/
def Obligations.WorkMergesOrFinishes : Prop :=
  (∀ s, StateInv s → 2 ≤ s.count → ∃ t, work s = .next t ∧ MergeRel s t) ∧
  (∀ s, StateInv s → s.count = 1 → ∃ n, s.q = [s.nnodes - 1] ∧ s.node.read (s.nnodes - 1) = some n ∧
    work s = .next { s with
      root := s.nnodes - 1, rv := true, rsp := some (rxWord (s.nnodes - 1) n), phase := .idle })

/-- R126: REDUCE accepted with `COUNT = n >= 1` does exactly `n - 1` merging steps and one finishing step, `n - 1 <= 255`,
unless a reset strikes; all that while it is BUSY without a response; then `COUNT` is 1 and the answer is RX of the root,
which weighs `TOTAL`. -/
def Obligations.ReduceFinishesAfterCountSteps : Prop :=
  ∀ s, StateInv s → cmdReady s = true → 1 ≤ s.count → HostMove.reset ∉ s.host →
    s.count - 1 ≤ 255 ∧
    ∃ b, exec .reduce s = .next b ∧
      (∀ k < s.count, ∃ u, runs k b = .next u ∧ u.phase = .busy ∧ u.rsp = none ∧ u.count = s.count - k ∧
        u.nnodes = s.nnodes + k) ∧
      ∃ t n, runs s.count b = .next t ∧ t.phase = .idle ∧ t.count = 1 ∧ t.rv = true ∧ t.root = s.nnodes + s.count - 2 ∧
        t.q = [t.root] ∧ t.node.read t.root = some n ∧ n.weight = t.total ∧ t.total = s.total ∧
        t.rsp = some (rxWord t.root n)

/-- R128: the final state of a REDUCE is one reachable by `COUNT - 1` successive merge steps, finished: REDUCE is one step to
the host. Until then no command is accepted and `RSP` is empty, and a reset leaves the same state whenever it strikes. -/
def Obligations.ReduceIsAtomicToTheHost : Prop :=
  ∀ s, StateInv s → cmdReady s = true → 1 ≤ s.count → HostMove.reset ∉ s.host →
    exec .reduce s = .next { s with phase := .busy } ∧
    (∀ k < s.count, ∃ v, runs k { s with phase := .busy } = .next v ∧ cmdReady v = false ∧ v.rsp = none ∧
      SameBlock (resetBlock v) State.reset) ∧
    ∃ u r n t, MergeChain (s.count - 1) s u ∧ u.q = [r] ∧ u.node.read r = some n ∧
      runs s.count { s with phase := .busy } = .next t ∧ SameBlock t (finishedState r n u)

/-! ## The steps of the host -/

/-- R204: when the block is ready and the offered word decodes to a command, the step is that command's `exec`, the move being
used up. -/
def Obligations.StepRunsTheDecodedCommand : Prop :=
  ∀ s w i rest, cmdReady s = true → s.host = .issue w :: rest → decode w = .ok i →
    step s = exec i { s with host := rest }

/-- R204: while the block is BUSY or a response waits, no command acts: `exec` changes nothing, and the offered word stays
offered while the engine has the step. -/
def Obligations.CommandsAreHeldUntilReady : Prop :=
  (∀ i s, cmdReady s = false → exec i s = .next s) ∧
  (∀ s w rest, s.host = .issue w :: rest → s.phase = .busy → step s = work s) ∧
  (∀ s w rest, s.host = .issue w :: rest → s.phase = .idle → s.rsp ≠ none → step s = .next s)

/-- R205: Take empties `RSP`, the host receives the word, nothing else of the block changes; without a response the host goes
on waiting. -/
def Obligations.TakeEmptiesTheResponse : Prop :=
  (∀ s r rest, s.host = .take :: rest → s.rsp = some r →
    step s = .next { s with rsp := none, host := rest, taken := s.taken ++ [r] }) ∧
  (∀ s rest, s.host = .take :: rest → s.rsp = none → s.phase = .idle → step s = .next s) ∧
  (∀ s rest, s.host = .take :: rest → s.rsp = none → s.phase = .busy → step s = work s)

/-- R209: a host that waits, or plans nothing, leaves an idle block as it is and a BUSY one working. -/
def Obligations.WaitingLeavesTheEngineItsStep : Prop :=
  (∀ s, s.host = [] → s.phase = .idle → step s = .next s) ∧
  (∀ s, s.host = [] → s.phase = .busy → step s = work s) ∧
  (∀ s rest, s.host = .wait :: rest → s.phase = .idle → step s = .next { s with host := rest }) ∧
  (∀ s rest, s.host = .wait :: rest → s.phase = .busy → step s = work { s with host := rest })

/-- R200: reset may strike in any state, and leaves every piece of the block's state at its reset value; a waiting response is
lost, not taken. -/
def Obligations.ResetStrikesInAnyState : Prop :=
  ∀ s rest, s.host = .reset :: rest →
    ∃ t, step s = .next t ∧ SameBlock t State.reset ∧ t.host = rest ∧ t.taken = s.taken

/-- R208, R200: a REDUCE in progress is ended early by nothing but reset: in any other step of a BUSY block it goes on
merging, or finishes with its response. -/
def Obligations.OnlyResetEndsAReduceEarly : Prop :=
  ∀ s t, s.phase = .busy → s.rsp = none → (∀ rest, s.host ≠ .reset :: rest) → step s = .next t →
    (1 < s.count ∧ t.phase = .busy ∧ t.rsp = none ∧ t.count + 1 = s.count) ∨
    (s.count ≤ 1 ∧ t.phase = .idle ∧ t.rv = true ∧ ∃ n, s.q = [t.root] ∧ s.node.read t.root = some n ∧
      t.rsp = some (rxWord t.root n))

/-- R205, R210, R211: a command issued to a ready block is answered exactly once, within 258 steps, by a host that takes the
response; the block is then ready again. -/
def Obligations.EveryCommandIsAnsweredOnce : Prop :=
  ∀ s w rest, StateInv s → cmdReady s = true → s.host = .issue w :: .take :: rest →
    ∃ k ≤ 258, ∃ t r, runs k s = .next t ∧ t.taken = s.taken ++ [r] ∧ cmdReady t = true ∧ t.host = rest

/-- R211: the run of a list of words, each issued and its response taken, ends with one response per word and the block ready.
-/
def Obligations.EveryWordOfARunIsAnswered : Prop :=
  ∀ (ws : List Word) s rest, StateInv s → cmdReady s = true → s.host = runMoves ws ++ rest →
    ∃ k ≤ 258 * ws.length, ∃ t rs, runs k s = .next t ∧ t.taken = s.taken ++ rs ∧ rs.length = ws.length ∧ t.host = rest ∧
      t.phase = .idle ∧ t.rsp = none

/-! ## Registers and records over all steps -/

/-- R56: the only writes to the node store are a record at index `NNODES`, by PUSH or a merge step; a record in use is never
changed; records go out of use only all together, by CLEAR or reset. -/
def Obligations.RecordsAreWrittenOnce : Prop :=
  ∀ s t, StateInv s → step s = .next t →
    (∀ i n, s.node.read i = some n → t.node.read i = some n ∨
      ((∀ j, t.node.read j = none) ∧
        ((∃ rest, s.host = .reset :: rest) ∨
         (∃ w rest, s.host = .issue w :: rest ∧ decode w = .ok .clear ∧ cmdReady s = true)))) ∧
    (∀ i n, t.node.read i = some n → s.node.read i = some n ∨
      (i = s.nnodes ∧
        ((∃ w rest b x, s.host = .issue w :: rest ∧ decode w = .ok (.push b x) ∧ cmdReady s = true ∧ n = .leaf b x) ∨
         (∃ w rest a b x, s.host = .issue w :: rest ∧ decode w = .ok .merge ∧ cmdReady s = true ∧ n = .internal a b x) ∨
         (s.phase = .busy ∧ 2 ≤ s.count ∧ ∃ a b x, n = .internal a b x))))

/-- R23, R24, R25, R27: how the counters move: an accepted PUSH adds one node, one leaf, one tree and its weight; a merge
step, of an accepted MERGE or of a BUSY block, adds one node and takes one tree; an accepted CLEAR and reset set all to 0; no
other step writes them. -/
def Obligations.CountersMoveOnlyByPushMergeClearReset : Prop :=
  ∀ s t, step s = .next t →
    (t.nnodes = s.nnodes ∧ t.nleaf = s.nleaf ∧ t.count = s.count ∧ t.total = s.total) ∨
    (∃ w b x rest, s.host = .issue w :: rest ∧ decode w = .ok (.push b x) ∧ cmdReady s = true ∧ t.nnodes = s.nnodes + 1 ∧
      t.nleaf = s.nleaf + 1 ∧ t.count = s.count + 1 ∧ t.total.toNat = s.total.toNat + x.toNat) ∨
    (((∃ w rest, s.host = .issue w :: rest ∧ decode w = .ok .merge ∧ cmdReady s = true) ∨
        (s.phase = .busy ∧ ∀ rest, s.host ≠ .reset :: rest)) ∧
      2 ≤ s.count ∧ t.nnodes = s.nnodes + 1 ∧ t.nleaf = s.nleaf ∧ t.count + 1 = s.count ∧ t.total = s.total) ∨
    (t.nnodes = 0 ∧ t.nleaf = 0 ∧ t.count = 0 ∧ t.total = 0#32 ∧
      ((∃ rest, s.host = .reset :: rest) ∨
        ∃ w rest, s.host = .issue w :: rest ∧ decode w = .ok .clear ∧ cmdReady s = true))

/-- R28: who writes `ROOT` and `RV`: the finish of a REDUCE sets them; a successful PUSH and a successful MERGE clear `RV` and
keep `ROOT`; CLEAR and reset clear both; an error and every other step change neither. -/
def Obligations.RootAndRvAreWrittenAsStated : Prop :=
  (∀ s t, work s = .next t → (1 < s.count ∧ t.root = s.root ∧ t.rv = s.rv) ∨ (s.q = [t.root] ∧ t.rv = true)) ∧
  (∀ b x s t, cmdReady s = true → exec (.push b x) s = .next t →
    t.root = s.root ∧ (t.rv = false ∨ ∃ e, t = raise e s)) ∧
  (∀ s t, cmdReady s = true → exec .merge s = .next t → t.root = s.root ∧ (t.rv = false ∨ ∃ e, t = raise e s)) ∧
  (∀ s t, cmdReady s = true → exec .clear s = .next t → t.root = 0 ∧ t.rv = false) ∧
  (∀ s, (resetBlock s).root = 0 ∧ (resetBlock s).rv = false) ∧
  (∀ k s t, exec (.rdnode k) s = .next t → t.root = s.root ∧ t.rv = s.rv) ∧
  (∀ s t, exec .rdstat s = .next t → t.root = s.root ∧ t.rv = s.rv) ∧
  (∀ s t, exec .reduce s = .next t → t.root = s.root ∧ t.rv = s.rv) ∧
  (∀ e s, (raise e s).root = s.root ∧ (raise e s).rv = s.rv) ∧
  (∀ s, (takeResponse s).root = s.root ∧ (takeResponse s).rv = s.rv)

/-! ## Frames -/

/-- Frame of RDNODE and RDSTAT (R150, R151, R54): every record and every register but `RSP` is unchanged; `FAULT` changes only
when RDNODE raises. -/
def Obligations.ReadoutFrame : Prop :=
  (∀ k s t, exec (.rdnode k) s = .next t → t = { s with rsp := t.rsp, fault := t.fault } ∧
    (∀ a, t.node.read a = s.node.read a) ∧ (k.toNat < s.nnodes → t.fault = s.fault)) ∧
  (∀ s t, exec .rdstat s = .next t → t = { s with rsp := t.rsp } ∧ ∀ a, t.node.read a = s.node.read a)

/-- Frame of PUSH (R101, R56): it stores at `allocIndex s`; every other record is as before, every old root is still a root;
`ROOT`, `PHASE` and the host's fields are unchanged; it does exactly a raise, or it leaves `FAULT` and answers no error word.
-/
def Obligations.PushFrame : Prop :=
  ∀ b x s t, exec (.push b x) s = .next t →
    t = { s with node := t.node, nnodes := t.nnodes, nleaf := t.nleaf, count := t.count, q := t.q, total := t.total,
                 rv := t.rv, fault := t.fault, rsp := t.rsp } ∧
    (∀ a, a ≠ allocIndex s → t.node.read a = s.node.read a) ∧
    (∀ i, i ≠ allocIndex s → (i ∈ t.q ↔ i ∈ s.q)) ∧
    ((∃ e, t = raise e s) ∨ (t.fault = s.fault ∧ ∀ r, t.rsp = some r → s.rsp = some r ∨ rcOf r = 0#4))

/-- Frame of MERGE and of a `Work` step (R123, R124, R206): a merge stores at `allocIndex s`, and every other record is as
before; `NLEAF`, `TOTAL` and the host's fields are unchanged; MERGE leaves `ROOT` and `PHASE`, and does exactly a raise, or
leaves `FAULT` and answers no error word; a merging `Work` step leaves `ROOT`, `RV`, `FAULT`, `PHASE`, `RSP`; a finishing one
leaves every record, the counters and `Q`. -/
def Obligations.MergeAndWorkFrame : Prop :=
  (∀ s t, exec .merge s = .next t →
    t = { s with node := t.node, nnodes := t.nnodes, count := t.count, q := t.q, rv := t.rv, fault := t.fault, rsp := t.rsp,
                 tie := t.tie } ∧
    (∀ a, a ≠ allocIndex s → t.node.read a = s.node.read a) ∧
    ((∃ e, t = raise e s) ∨ (t.fault = s.fault ∧ ∀ r, t.rsp = some r → s.rsp = some r ∨ rcOf r = 0#4))) ∧
  (∀ s t, work s = .next t → 1 < s.count →
    t = { s with node := t.node, nnodes := t.nnodes, count := t.count, q := t.q, tie := t.tie } ∧
    ∀ a, a ≠ allocIndex s → t.node.read a = s.node.read a) ∧
  (∀ s t, work s = .next t → s.count ≤ 1 →
    t = { s with root := t.root, rv := t.rv, rsp := t.rsp, phase := t.phase } ∧ ∀ a, t.node.read a = s.node.read a)

/-- Frame of REDUCE at acceptance, and of CLEAR (R204, R100): REDUCE stores no record and changes nothing, or only `PHASE`, to
BUSY with no response, or does exactly the raise of EmptyInput; CLEAR leaves `PHASE` and the host's fields, and no record has
a value after it when it was accepted. -/
def Obligations.ReduceAndClearFrame : Prop :=
  (∀ s t, exec .reduce s = .next t → (∀ a, t.node.read a = s.node.read a) ∧
    (t = s ∨ (t = { s with phase := .busy } ∧ t.rsp = none) ∨ t = raise .emptyInput s)) ∧
  (∀ s t, cmdReady s = true → exec .clear s = .next t →
    t.phase = s.phase ∧ t.host = s.host ∧ t.taken = s.taken ∧ t.tie = s.tie ∧ ∀ a, t.node.read a = none)

/-! ## Trees, codes, and what ties and bytes can change -/

/-- R127, R152, R125: after a successful REDUCE, with `RV` = 1, the records in use are one tree under `ROOT`: every record is
met once by the walk, every leaf once, children are two distinct older nodes, weights add up to `TOTAL` at the root, LEFT is
never heavier; the root is Internal exactly when there are two leaves or more; the height is at most `NLEAF - 1 <= 255`. -/
def Obligations.ResultIsOneTreeOverAllLeaves : Prop :=
  ∀ s, StateInv s → s.rv = true →
    (nodesUnder s.node s.root).Perm (List.range s.nnodes) ∧
    (leavesUnder s.node s.root).Perm (leafIndices s.node) ∧
    (∀ i ∈ nodesUnder s.node s.root, weightAt s.node i = ((leavesUnder s.node i).map (weightAt s.node)).sum) ∧
    (∀ k l r w, s.node.read k = some (.internal l r w) →
      l ≠ r ∧ l < k ∧ r < k ∧ weightAt s.node l ≤ weightAt s.node r ∧ l ∈ nodesUnder s.node s.root ∧
      r ∈ nodesUnder s.node s.root) ∧
    weightAt s.node s.root = s.total.toNat ∧
    ((∃ l r w, s.node.read s.root = some (.internal l r w)) ↔ 2 ≤ s.nleaf) ∧
    (∀ e ∈ codes s.node s.root, e.code.length ≤ s.nleaf - 1) ∧ s.nleaf - 1 ≤ 255

/-- R12, R14 T2 and T3: the codes of the leaves under any node in use: one entry per leaf, with its byte and weight; no code
is a prefix of another entry's; under an Internal node every code has length at least 1, and a Leaf alone has the empty code
(R153). -/
def Obligations.CodesFormAPrefixCode : Prop :=
  ∀ s i, StateInv s → i < s.nnodes →
    ((codes s.node i).map fun e => some (Node.leaf e.byte e.weight)) = (leavesUnder s.node i).map s.node.read ∧
    (codes s.node i).Pairwise (fun d e => ¬ d.code <+: e.code ∧ ¬ e.code <+: d.code) ∧
    (∀ l r w, s.node.read i = some (.internal l r w) → ∀ e ∈ codes s.node i, 1 ≤ e.code.length) ∧
    (∀ b w, s.node.read i = some (.leaf b w) → codes s.node i = [{ byte := b, weight := w, code := [] }])

/-- R129: the weighted path length under a node is the sum of the weights of the Internal records under it; over the result of
a REDUCE, of all Internal records. -/
def Obligations.WeightedPathLengthIsTheSumOfInternalWeights : Prop :=
  (∀ s i, StateInv s → i < s.nnodes → weightedPathLength s.node i =
    (((nodesUnder s.node i).filter fun k => k ∈ internalIndices s.node).map (weightAt s.node)).sum) ∧
  (∀ s, StateInv s → s.rv = true →
    weightedPathLength s.node s.root = ((internalIndices s.node).map (weightAt s.node)).sum)

/-- R129: whatever the ties do, two runs that so far differ only in what ties can change still do after the same command, the
same `Work` step, or a merge step under any policies and choices. RDNODE is compared where it reads a Leaf or raises. -/
def Obligations.TiesChangeOnlyTheShape : Prop :=
  (∀ pol c₁ c₂ qol d₁ d₂ s s' t t', StateInv s → StateInv s' → SameUpToTies s s' →
    mergeStepWith pol c₁ c₂ s = .ok t → mergeStepWith qol d₁ d₂ s' = .ok t' → SameUpToTies t t') ∧
  (∀ i s s', StateInv s → StateInv s' → SameUpToTies s s' →
    (∀ k l r w, i = .rdnode k → s.node.read k.toNat ≠ some (.internal l r w)) →
    OutcomesAgree SameUpToTies (exec i s) (exec i s')) ∧
  (∀ s s', StateInv s → StateInv s' → SameUpToTies s s' → 1 ≤ s.count → OutcomesAgree SameUpToTies (work s) (work s'))

/-- R105: HFRE never looks at `BYTE`: from two states that differ only in the bytes of their leaves, the same command (for
PUSH, with any two bytes), or a `Work` step, ends the same way and leaves states that differ only in the bytes of their
leaves. RDNODE, which answers the byte, is apart. For MERGE and `Work` this is for the same choices among tied trees: the two
states have one counter `tie`, and so one free choice. That is the model's DESIGN CHOICE (log 3), and R105 says no such thing:
under ANY (R121) two runs may choose apart, and `TiesChangeOnlyTheShape` says what is then still the same. -/
def Obligations.BytesAreNeverInspected : Prop :=
  (∀ b b' x s s', blankBytes s = blankBytes s' →
    OutcomesAgree (fun t t' => blankBytes t = blankBytes t') (exec (.push b x) s) (exec (.push b' x) s')) ∧
  (∀ i s s', (∀ k, i ≠ .rdnode k) → blankBytes s = blankBytes s' →
    OutcomesAgree (fun t t' => blankBytes t = blankBytes t') (exec i s) (exec i s')) ∧
  (∀ s s', blankBytes s = blankBytes s' →
    OutcomesAgree (fun t t' => blankBytes t = blankBytes t') (work s) (work s'))

/-! ## The software around the block -/

/-- R9: the frequency table has an entry per byte of the range, its count of that byte; the counts sum to the number of input
bytes that are in the range. -/
def Obligations.FrequencyTableCountsTheInput : Prop :=
  ∀ range input : List Byte, range.Nodup →
    countBytes range input = range.map (fun b => (b, input.count b)) ∧
    ((countBytes range input).map Prod.snd).sum = (input.filter fun b => b ∈ range).length

/-- R80, R81, R10: an assembler line whose operands fit stands for the commands written, a PUSHTABLE for one PUSH per entry in
order; otherwise it is an assembly error. The forest of a frequency table is one PUSH per entry. -/
def Obligations.PushTableIsOnePushPerEntry : Prop :=
  (∀ es : List (Nat × Nat), (∀ e ∈ es, e.1 ≤ 255 ∧ e.2 ≤ 2 ^ 32 - 1) →
    ∃ is : List Instr, assemble (.pushTable es) = some is ∧ is.length = es.length ∧
      ∀ (k b x : Nat), es[k]? = some (b, x) → is[k]? = some (Instr.push (BitVec.ofNat 8 b) (BitVec.ofNat 32 x))) ∧
  (∀ es : List (Nat × Nat), ∀ e ∈ es, (e.1 > 255 ∨ e.2 > 2 ^ 32 - 1) → assemble (.pushTable es) = none) ∧
  (∀ t : FrequencyTable, (∀ e ∈ t, e.2 ≤ 2 ^ 32 - 1) →
    buildForest t = some (t.map fun e => Instr.push e.1 (BitVec.ofNat 32 e.2)))

/-- R13, R14 T1: stage 1 refuses the first byte outside its range, and what it accepts it counts whole; the consumer of stage
4 refuses the table exactly of a single leaf, which the TAG of the root's RX word shows. (The form of both refusals: log 18.)
-/
def Obligations.HostStagesRefuseWhatTheyCannotServe : Prop :=
  (∀ range input : List Byte, (∀ b ∈ input, b ∈ range) → countOrReject range input = .ok (countBytes range input)) ∧
  (∀ (range input : List Byte) b, countOrReject range input = .error (.unsupportedByteValue b) ↔
    ∃ before rest, input = before ++ b :: rest ∧ b ∉ range ∧ ∀ c ∈ before, c ∈ range) ∧
  (∀ (range input : List Byte) t, range.Nodup → countOrReject range input = .ok t →
    (t.map Prod.snd).sum = input.length) ∧
  (∀ s i, StateInv s → i < s.nnodes →
    (tableOrReject s.node i = .error .degenerateSingleSymbolTree ↔ ∃ b w, s.node.read i = some (.leaf b w)) ∧
    (∀ l r w, s.node.read i = some (.internal l r w) → tableOrReject s.node i = .ok (codes s.node i))) ∧
  (∀ i n, ((rxWord i n).extractLsb 59 56).toNat = 0 ↔ ∃ b w, n = .leaf b w)
end

