-- ==== Sys2Proof/Laws/Memory.lean ====
section
/-! SUPPORT. The node store and the set of roots: what a read finds after a write, and that every operation keeps the canonical
forms (10_state.md R22, R26). -/

namespace Sys2Proof.Machine

/-! ## Reading and writing records -/

@[simp] theorem read_nil (i : Nat) : Memory.read [] i = none := rfl

theorem read_cons (j : Nat) (n : Node) (m : Memory) (i : Nat) :
    Memory.read ((j, n) :: m) i = if i = j then some n else Memory.read m i := rfl

/-- A read after a write to the same index gives the record written. -/
@[simp] theorem read_write_same (m : Memory) (i : Nat) (n : Node) : (m.write i n).read i = some n := by
  induction m with
  | nil => simp [Memory.write, Memory.read]
  | cons e rest ih =>
    obtain ⟨j, k⟩ := e
    unfold Memory.write
    split
    · simp [read_cons]
    · split
      · simp [read_cons]
      · simp only [read_cons, ih]
        simp_all

/-- A write leaves every other index alone. -/
theorem read_write_ne (m : Memory) {i j : Nat} (n : Node) (h : j ≠ i) : (m.write i n).read j = m.read j := by
  induction m with
  | nil => simp [Memory.write, Memory.read, h]
  | cons e rest ih =>
    obtain ⟨l, k⟩ := e
    unfold Memory.write
    split
    · simp [read_cons, h]
    · split
      · rename_i h₁ h₂
        subst h₂
        simp [read_cons, h]
      · simp only [read_cons, ih]

theorem read_write (m : Memory) (i j : Nat) (n : Node) :
    (m.write i n).read j = if j = i then some n else m.read j := by
  by_cases h : j = i
  · subst h; simp
  · simp [h, read_write_ne]

/-- An index with a record is listed, and conversely. -/
theorem read_isSome_iff (m : Memory) (i : Nat) : (m.read i).isSome ↔ i ∈ m.map Prod.fst := by
  induction m with
  | nil => simp
  | cons e rest ih =>
    obtain ⟨j, n⟩ := e
    simp only [read_cons, List.map_cons, List.mem_cons, ← ih]
    split <;> simp_all

/-- A record that is read is listed. -/
theorem mem_of_read {m : Memory} {i : Nat} {n : Node} (h : m.read i = some n) : (i, n) ∈ m := by
  induction m with
  | nil => simp at h
  | cons e rest ih =>
    obtain ⟨j, k⟩ := e
    rw [read_cons] at h
    split at h
    · simp_all
    · exact List.mem_cons_of_mem _ (ih h)

/-- In a canonical store a listed record is what the read finds. -/
theorem read_of_mem {m : Memory} (wf : m.wf) {i : Nat} {n : Node} (h : (i, n) ∈ m) : m.read i = some n := by
  induction m with
  | nil => simp at h
  | cons e rest ih =>
    obtain ⟨j, k⟩ := e
    simp only [Memory.wf, List.map_cons, List.pairwise_cons] at wf
    rw [read_cons]
    rcases List.mem_cons.1 h with h | h
    · simp_all
    · have : j < i := wf.1 i (List.mem_map.2 ⟨_, h, rfl⟩)
      rw [if_neg (by omega)]
      exact ih wf.2 h

theorem mem_iff_read {m : Memory} (wf : m.wf) (i : Nat) (n : Node) : (i, n) ∈ m ↔ m.read i = some n :=
  ⟨read_of_mem wf, mem_of_read⟩

/-- A canonical store has each listed index once. -/
theorem wf_nodup {m : Memory} (wf : m.wf) : (m.map Prod.fst).Nodup := wf.imp fun h => by omega

/-- The store after reset is canonical. -/
theorem reset_memory_wf : State.reset.node.wf := List.Pairwise.nil

/-- A write above every listed index puts the record last. -/
theorem write_above {m : Memory} {k : Nat} (n : Node) (h : ∀ j ∈ m.map Prod.fst, j < k) : m.write k n = m ++ [(k, n)] := by
  induction m with
  | nil => rfl
  | cons e rest ih =>
    obtain ⟨j, l⟩ := e
    have hj : j < k := h j (by simp)
    rw [Memory.write, if_neg (by omega), if_neg (by omega), ih fun x hx => h x (by simp_all)]
    rfl

theorem mem_map_fst_write (m : Memory) (i j : Nat) (n : Node) :
    j ∈ (m.write i n).map Prod.fst ↔ j = i ∨ j ∈ m.map Prod.fst := by
  rw [← read_isSome_iff, ← read_isSome_iff, read_write]
  split <;> simp_all

/-- A write keeps the canonical form. -/
theorem write_wf {m : Memory} (wf : m.wf) (i : Nat) (n : Node) : (m.write i n).wf := by
  induction m with
  | nil => simp [Memory.write, Memory.wf]
  | cons e rest ih =>
    obtain ⟨j, l⟩ := e
    have wf' := wf
    simp only [Memory.wf, List.map_cons, List.pairwise_cons] at wf
    unfold Memory.write
    split
    · simp only [Memory.wf, List.map_cons, List.pairwise_cons, List.mem_cons]
      refine ⟨?_, wf.1, wf.2⟩
      rintro x (rfl | hx)
      · assumption
      · have := wf.1 x hx; omega
    · split
      · simp only [Memory.wf, List.map_cons, List.pairwise_cons]
        rename_i h; subst h
        exact wf
      · simp only [Memory.wf, List.map_cons, List.pairwise_cons]
        refine ⟨fun x hx => ?_, ih wf.2⟩
        rcases (mem_map_fst_write rest i x n).1 hx with rfl | hx
        · omega
        · exact wf.1 x hx

@[simp] theorem readNode_eq_ok (m : Memory) (i : Nat) (n : Node) : readNode m i = .ok n ↔ m.read i = some n := by
  unfold readNode; split <;> simp_all

theorem readNode_of_read {m : Memory} {i : Nat} {n : Node} (h : m.read i = some n) : readNode m i = .ok n := by simp [h]

theorem weightAt_of_read {m : Memory} {i : Nat} {n : Node} (h : m.read i = some n) : weightAt m i = n.weight.toNat := by
  simp [weightAt, h]

theorem weightAt_write (m : Memory) (i j : Nat) (n : Node) :
    weightAt (m.write i n) j = if j = i then n.weight.toNat else weightAt m j := by
  unfold weightAt
  rw [read_write]
  by_cases h : j = i <;> simp [h]

/-! ## The set of roots -/

@[simp] theorem mem_qInsert (i j : Nat) (S : List Nat) : j ∈ qInsert i S ↔ j = i ∨ j ∈ S := by
  induction S with
  | nil => simp [qInsert]
  | cons k rest ih =>
    unfold qInsert
    split
    · simp
    · split
      · simp_all
      · simp only [List.mem_cons, ih]; tauto

@[simp] theorem mem_qRemove (i j : Nat) (S : List Nat) : j ∈ qRemove i S ↔ j ∈ S ∧ j ≠ i := by simp [qRemove]

theorem qInsert_wf {S : List Nat} (wf : qWf S) (i : Nat) : qWf (qInsert i S) := by
  induction S with
  | nil => simp [qInsert]
  | cons k rest ih =>
    have wf' := List.pairwise_cons.1 wf
    unfold qInsert
    split
    · refine List.pairwise_cons.2 ⟨fun x hx => ?_, wf⟩
      rcases List.mem_cons.1 hx with rfl | hx
      · assumption
      · have := wf'.1 x hx; omega
    · split
      · exact wf
      · refine List.pairwise_cons.2 ⟨fun x hx => ?_, ih wf'.2⟩
        rcases (mem_qInsert i x rest).1 hx with rfl | hx
        · omega
        · exact wf'.1 x hx

theorem qRemove_wf {S : List Nat} (wf : qWf S) (i : Nat) : qWf (qRemove i S) := List.Pairwise.filter _ wf

theorem qWf_nodup {S : List Nat} (wf : qWf S) : S.Nodup := wf.imp fun h => by omega

/-- Inserting an index above every member puts it last. -/
theorem qInsert_above {S : List Nat} {k : Nat} (h : ∀ j ∈ S, j < k) : qInsert k S = S ++ [k] := by
  induction S with
  | nil => rfl
  | cons j rest ih =>
    have hj : j < k := h j (by simp)
    rw [qInsert, if_neg (by omega), if_neg (by omega), ih fun x hx => h x (by simp_all)]
    rfl

/-- A member taken out of a set without repeats and put in front is the set again, rearranged. -/
theorem cons_qRemove_perm {S : List Nat} (nd : S.Nodup) {i : Nat} (h : i ∈ S) : (i :: qRemove i S).Perm S := by
  have : qRemove i S = S.erase i := by
    rw [nd.erase_eq_filter i]
    simp only [qRemove]
    congr 1
    funext x
    simp [bne]
    rfl
  rw [this]
  exact (List.perm_cons_erase h).symm

theorem qRemove_nodup {S : List Nat} (nd : S.Nodup) (i : Nat) : (qRemove i S).Nodup := List.Nodup.filter _ nd

theorem qRemove_length {S : List Nat} (nd : S.Nodup) {i : Nat} (h : i ∈ S) : (qRemove i S).length + 1 = S.length := by
  have := (cons_qRemove_perm nd h).length_eq
  simpa using this

end Sys2Proof.Machine
end

