-- ==== Sys2Proof/Laws/State.lean ====
section
/-! SUPPORT. One lemma per field for each named update of the state, true by unfolding it once; nothing later unfolds a record
update. -/

namespace Sys2Proof.Machine

/-! ## respond -/

@[simp] theorem respond_node (w : Word) (s : State) : (respond w s).node = s.node := rfl
@[simp] theorem respond_nnodes (w : Word) (s : State) : (respond w s).nnodes = s.nnodes := rfl
@[simp] theorem respond_nleaf (w : Word) (s : State) : (respond w s).nleaf = s.nleaf := rfl
@[simp] theorem respond_count (w : Word) (s : State) : (respond w s).count = s.count := rfl
@[simp] theorem respond_q (w : Word) (s : State) : (respond w s).q = s.q := rfl
@[simp] theorem respond_total (w : Word) (s : State) : (respond w s).total = s.total := rfl
@[simp] theorem respond_root (w : Word) (s : State) : (respond w s).root = s.root := rfl
@[simp] theorem respond_rv (w : Word) (s : State) : (respond w s).rv = s.rv := rfl
@[simp] theorem respond_fault (w : Word) (s : State) : (respond w s).fault = s.fault := rfl
@[simp] theorem respond_phase (w : Word) (s : State) : (respond w s).phase = s.phase := rfl
@[simp] theorem respond_rsp (w : Word) (s : State) : (respond w s).rsp = some w := rfl
@[simp] theorem respond_host (w : Word) (s : State) : (respond w s).host = s.host := rfl
@[simp] theorem respond_taken (w : Word) (s : State) : (respond w s).taken = s.taken := rfl
@[simp] theorem respond_tie (w : Word) (s : State) : (respond w s).tie = s.tie := rfl

/-! ## raise -/

@[simp] theorem raise_node (e : Error) (s : State) : (raise e s).node = s.node := rfl
@[simp] theorem raise_nnodes (e : Error) (s : State) : (raise e s).nnodes = s.nnodes := rfl
@[simp] theorem raise_nleaf (e : Error) (s : State) : (raise e s).nleaf = s.nleaf := rfl
@[simp] theorem raise_count (e : Error) (s : State) : (raise e s).count = s.count := rfl
@[simp] theorem raise_q (e : Error) (s : State) : (raise e s).q = s.q := rfl
@[simp] theorem raise_total (e : Error) (s : State) : (raise e s).total = s.total := rfl
@[simp] theorem raise_root (e : Error) (s : State) : (raise e s).root = s.root := rfl
@[simp] theorem raise_rv (e : Error) (s : State) : (raise e s).rv = s.rv := rfl
@[simp] theorem raise_fault (e : Error) (s : State) : (raise e s).fault = setFault e s.fault := rfl
@[simp] theorem raise_phase (e : Error) (s : State) : (raise e s).phase = s.phase := rfl
@[simp] theorem raise_rsp (e : Error) (s : State) : (raise e s).rsp = some (reWord e) := rfl
@[simp] theorem raise_host (e : Error) (s : State) : (raise e s).host = s.host := rfl
@[simp] theorem raise_taken (e : Error) (s : State) : (raise e s).taken = s.taken := rfl
@[simp] theorem raise_tie (e : Error) (s : State) : (raise e s).tie = s.tie := rfl

/-! ## clearAll -/

@[simp] theorem clearAll_node (s : State) : (clearAll s).node = [] := rfl
@[simp] theorem clearAll_nnodes (s : State) : (clearAll s).nnodes = 0 := rfl
@[simp] theorem clearAll_nleaf (s : State) : (clearAll s).nleaf = 0 := rfl
@[simp] theorem clearAll_count (s : State) : (clearAll s).count = 0 := rfl
@[simp] theorem clearAll_q (s : State) : (clearAll s).q = [] := rfl
@[simp] theorem clearAll_total (s : State) : (clearAll s).total = 0#32 := rfl
@[simp] theorem clearAll_root (s : State) : (clearAll s).root = 0 := rfl
@[simp] theorem clearAll_rv (s : State) : (clearAll s).rv = false := rfl
@[simp] theorem clearAll_fault (s : State) : (clearAll s).fault = 0x00#8 := rfl
@[simp] theorem clearAll_phase (s : State) : (clearAll s).phase = s.phase := rfl
@[simp] theorem clearAll_rsp (s : State) : (clearAll s).rsp = s.rsp := rfl
@[simp] theorem clearAll_host (s : State) : (clearAll s).host = s.host := rfl
@[simp] theorem clearAll_taken (s : State) : (clearAll s).taken = s.taken := rfl
@[simp] theorem clearAll_tie (s : State) : (clearAll s).tie = s.tie := rfl

/-! ## resetBlock -/

@[simp] theorem resetBlock_node (s : State) : (resetBlock s).node = [] := rfl
@[simp] theorem resetBlock_nnodes (s : State) : (resetBlock s).nnodes = 0 := rfl
@[simp] theorem resetBlock_nleaf (s : State) : (resetBlock s).nleaf = 0 := rfl
@[simp] theorem resetBlock_count (s : State) : (resetBlock s).count = 0 := rfl
@[simp] theorem resetBlock_q (s : State) : (resetBlock s).q = [] := rfl
@[simp] theorem resetBlock_total (s : State) : (resetBlock s).total = 0#32 := rfl
@[simp] theorem resetBlock_root (s : State) : (resetBlock s).root = 0 := rfl
@[simp] theorem resetBlock_rv (s : State) : (resetBlock s).rv = false := rfl
@[simp] theorem resetBlock_fault (s : State) : (resetBlock s).fault = 0x00#8 := rfl
@[simp] theorem resetBlock_phase (s : State) : (resetBlock s).phase = .idle := rfl
@[simp] theorem resetBlock_rsp (s : State) : (resetBlock s).rsp = none := rfl
@[simp] theorem resetBlock_host (s : State) : (resetBlock s).host = s.host := rfl
@[simp] theorem resetBlock_taken (s : State) : (resetBlock s).taken = s.taken := rfl
@[simp] theorem resetBlock_tie (s : State) : (resetBlock s).tie = s.tie := rfl

/-! ## placeCommand -/

@[simp] theorem placeCommand_node (s : State) (w : Word) : (placeCommand s w).node = s.node := rfl
@[simp] theorem placeCommand_nnodes (s : State) (w : Word) : (placeCommand s w).nnodes = s.nnodes := rfl
@[simp] theorem placeCommand_nleaf (s : State) (w : Word) : (placeCommand s w).nleaf = s.nleaf := rfl
@[simp] theorem placeCommand_count (s : State) (w : Word) : (placeCommand s w).count = s.count := rfl
@[simp] theorem placeCommand_q (s : State) (w : Word) : (placeCommand s w).q = s.q := rfl
@[simp] theorem placeCommand_total (s : State) (w : Word) : (placeCommand s w).total = s.total := rfl
@[simp] theorem placeCommand_root (s : State) (w : Word) : (placeCommand s w).root = s.root := rfl
@[simp] theorem placeCommand_rv (s : State) (w : Word) : (placeCommand s w).rv = s.rv := rfl
@[simp] theorem placeCommand_fault (s : State) (w : Word) : (placeCommand s w).fault = s.fault := rfl
@[simp] theorem placeCommand_phase (s : State) (w : Word) : (placeCommand s w).phase = .idle := rfl
@[simp] theorem placeCommand_rsp (s : State) (w : Word) : (placeCommand s w).rsp = none := rfl
@[simp] theorem placeCommand_host (s : State) (w : Word) : (placeCommand s w).host = .issue w :: s.host := rfl
@[simp] theorem placeCommand_taken (s : State) (w : Word) : (placeCommand s w).taken = s.taken := rfl
@[simp] theorem placeCommand_tie (s : State) (w : Word) : (placeCommand s w).tie = s.tie := rfl

/-! ## block -/

@[simp] theorem block_node (s : State) : (block s).node = s.node := rfl
@[simp] theorem block_nnodes (s : State) : (block s).nnodes = s.nnodes := rfl
@[simp] theorem block_nleaf (s : State) : (block s).nleaf = s.nleaf := rfl
@[simp] theorem block_count (s : State) : (block s).count = s.count := rfl
@[simp] theorem block_q (s : State) : (block s).q = s.q := rfl
@[simp] theorem block_total (s : State) : (block s).total = s.total := rfl
@[simp] theorem block_root (s : State) : (block s).root = s.root := rfl
@[simp] theorem block_rv (s : State) : (block s).rv = s.rv := rfl
@[simp] theorem block_fault (s : State) : (block s).fault = s.fault := rfl
@[simp] theorem block_phase (s : State) : (block s).phase = s.phase := rfl
@[simp] theorem block_rsp (s : State) : (block s).rsp = s.rsp := rfl
@[simp] theorem block_host (s : State) : (block s).host = [] := rfl
@[simp] theorem block_taken (s : State) : (block s).taken = [] := rfl
@[simp] theorem block_tie (s : State) : (block s).tie = 0 := rfl

/-! ## mergedState -/

@[simp] theorem mergedState_node (a b : Nat) (w : Weight) (s : State) : (mergedState a b w s).node = s.node.write s.nnodes (.internal a b w) := rfl
@[simp] theorem mergedState_nnodes (a b : Nat) (w : Weight) (s : State) : (mergedState a b w s).nnodes = s.nnodes + 1 := rfl
@[simp] theorem mergedState_nleaf (a b : Nat) (w : Weight) (s : State) : (mergedState a b w s).nleaf = s.nleaf := rfl
@[simp] theorem mergedState_count (a b : Nat) (w : Weight) (s : State) : (mergedState a b w s).count = s.count - 1 := rfl
@[simp] theorem mergedState_q (a b : Nat) (w : Weight) (s : State) : (mergedState a b w s).q = qInsert s.nnodes (qRemove b (qRemove a s.q)) := rfl
@[simp] theorem mergedState_total (a b : Nat) (w : Weight) (s : State) : (mergedState a b w s).total = s.total := rfl
@[simp] theorem mergedState_root (a b : Nat) (w : Weight) (s : State) : (mergedState a b w s).root = s.root := rfl
@[simp] theorem mergedState_rv (a b : Nat) (w : Weight) (s : State) : (mergedState a b w s).rv = s.rv := rfl
@[simp] theorem mergedState_fault (a b : Nat) (w : Weight) (s : State) : (mergedState a b w s).fault = s.fault := rfl
@[simp] theorem mergedState_phase (a b : Nat) (w : Weight) (s : State) : (mergedState a b w s).phase = s.phase := rfl
@[simp] theorem mergedState_rsp (a b : Nat) (w : Weight) (s : State) : (mergedState a b w s).rsp = s.rsp := rfl
@[simp] theorem mergedState_host (a b : Nat) (w : Weight) (s : State) : (mergedState a b w s).host = s.host := rfl
@[simp] theorem mergedState_taken (a b : Nat) (w : Weight) (s : State) : (mergedState a b w s).taken = s.taken := rfl
@[simp] theorem mergedState_tie (a b : Nat) (w : Weight) (s : State) : (mergedState a b w s).tie = s.tie := rfl

/-! ## finishedState -/

@[simp] theorem finishedState_node (r : Nat) (n : Node) (s : State) : (finishedState r n s).node = s.node := rfl
@[simp] theorem finishedState_nnodes (r : Nat) (n : Node) (s : State) : (finishedState r n s).nnodes = s.nnodes := rfl
@[simp] theorem finishedState_nleaf (r : Nat) (n : Node) (s : State) : (finishedState r n s).nleaf = s.nleaf := rfl
@[simp] theorem finishedState_count (r : Nat) (n : Node) (s : State) : (finishedState r n s).count = s.count := rfl
@[simp] theorem finishedState_q (r : Nat) (n : Node) (s : State) : (finishedState r n s).q = s.q := rfl
@[simp] theorem finishedState_total (r : Nat) (n : Node) (s : State) : (finishedState r n s).total = s.total := rfl
@[simp] theorem finishedState_root (r : Nat) (n : Node) (s : State) : (finishedState r n s).root = r := rfl
@[simp] theorem finishedState_rv (r : Nat) (n : Node) (s : State) : (finishedState r n s).rv = true := rfl
@[simp] theorem finishedState_fault (r : Nat) (n : Node) (s : State) : (finishedState r n s).fault = s.fault := rfl
@[simp] theorem finishedState_phase (r : Nat) (n : Node) (s : State) : (finishedState r n s).phase = .idle := rfl
@[simp] theorem finishedState_rsp (r : Nat) (n : Node) (s : State) : (finishedState r n s).rsp = some (rxWord r n) := rfl
@[simp] theorem finishedState_host (r : Nat) (n : Node) (s : State) : (finishedState r n s).host = s.host := rfl
@[simp] theorem finishedState_taken (r : Nat) (n : Node) (s : State) : (finishedState r n s).taken = s.taken := rfl
@[simp] theorem finishedState_tie (r : Nat) (n : Node) (s : State) : (finishedState r n s).tie = s.tie := rfl

/-! ## blankBytes -/

@[simp] theorem blankBytes_node (s : State) : (blankBytes s).node = s.node.map fun e => (e.1, e.2.blankByte) := rfl
@[simp] theorem blankBytes_nnodes (s : State) : (blankBytes s).nnodes = s.nnodes := rfl
@[simp] theorem blankBytes_nleaf (s : State) : (blankBytes s).nleaf = s.nleaf := rfl
@[simp] theorem blankBytes_count (s : State) : (blankBytes s).count = s.count := rfl
@[simp] theorem blankBytes_q (s : State) : (blankBytes s).q = s.q := rfl
@[simp] theorem blankBytes_total (s : State) : (blankBytes s).total = s.total := rfl
@[simp] theorem blankBytes_root (s : State) : (blankBytes s).root = s.root := rfl
@[simp] theorem blankBytes_rv (s : State) : (blankBytes s).rv = s.rv := rfl
@[simp] theorem blankBytes_fault (s : State) : (blankBytes s).fault = s.fault := rfl
@[simp] theorem blankBytes_phase (s : State) : (blankBytes s).phase = s.phase := rfl
@[simp] theorem blankBytes_rsp (s : State) : (blankBytes s).rsp = s.rsp := rfl
@[simp] theorem blankBytes_host (s : State) : (blankBytes s).host = s.host := rfl
@[simp] theorem blankBytes_taken (s : State) : (blankBytes s).taken = s.taken := rfl
@[simp] theorem blankBytes_tie (s : State) : (blankBytes s).tie = s.tie := rfl

/-! ## takeResponse -/

@[simp] theorem takeResponse_node (s : State) : (takeResponse s).node = s.node := by
  unfold takeResponse; split <;> rfl
@[simp] theorem takeResponse_nnodes (s : State) : (takeResponse s).nnodes = s.nnodes := by
  unfold takeResponse; split <;> rfl
@[simp] theorem takeResponse_nleaf (s : State) : (takeResponse s).nleaf = s.nleaf := by
  unfold takeResponse; split <;> rfl
@[simp] theorem takeResponse_count (s : State) : (takeResponse s).count = s.count := by
  unfold takeResponse; split <;> rfl
@[simp] theorem takeResponse_q (s : State) : (takeResponse s).q = s.q := by
  unfold takeResponse; split <;> rfl
@[simp] theorem takeResponse_total (s : State) : (takeResponse s).total = s.total := by
  unfold takeResponse; split <;> rfl
@[simp] theorem takeResponse_root (s : State) : (takeResponse s).root = s.root := by
  unfold takeResponse; split <;> rfl
@[simp] theorem takeResponse_rv (s : State) : (takeResponse s).rv = s.rv := by
  unfold takeResponse; split <;> rfl
@[simp] theorem takeResponse_fault (s : State) : (takeResponse s).fault = s.fault := by
  unfold takeResponse; split <;> rfl
@[simp] theorem takeResponse_phase (s : State) : (takeResponse s).phase = s.phase := by
  unfold takeResponse; split <;> rfl
@[simp] theorem takeResponse_host (s : State) : (takeResponse s).host = s.host := by
  unfold takeResponse; split <;> rfl
@[simp] theorem takeResponse_tie (s : State) : (takeResponse s).tie = s.tie := by
  unfold takeResponse; split <;> rfl
@[simp] theorem takeResponse_rsp (s : State) : (takeResponse s).rsp = none := by
  unfold takeResponse; split <;> simp_all
@[simp] theorem takeResponse_taken (s : State) : (takeResponse s).taken = s.taken ++ s.rsp.toList := by
  unfold takeResponse; split <;> simp_all

/-! ## reset -/

@[simp] theorem reset_node : State.reset.node = [] := rfl
@[simp] theorem reset_nnodes : State.reset.nnodes = 0 := rfl
@[simp] theorem reset_nleaf : State.reset.nleaf = 0 := rfl
@[simp] theorem reset_count : State.reset.count = 0 := rfl
@[simp] theorem reset_q : State.reset.q = [] := rfl
@[simp] theorem reset_total : State.reset.total = 0#32 := rfl
@[simp] theorem reset_root : State.reset.root = 0 := rfl
@[simp] theorem reset_rv : State.reset.rv = false := rfl
@[simp] theorem reset_fault : State.reset.fault = 0x00#8 := rfl
@[simp] theorem reset_phase : State.reset.phase = .idle := rfl
@[simp] theorem reset_rsp : State.reset.rsp = none := rfl
@[simp] theorem reset_host : State.reset.host = [] := rfl
@[simp] theorem reset_taken : State.reset.taken = [] := rfl
@[simp] theorem reset_tie : State.reset.tie = 0 := rfl

/-! ## block -/

/-- Two states are the same block when the eleven fields of 10_state.md R20 agree. -/
theorem sameBlock_iff (s t : State) : SameBlock s t ↔
    s.node = t.node ∧ s.nnodes = t.nnodes ∧ s.nleaf = t.nleaf ∧ s.count = t.count ∧ s.q = t.q ∧ s.total = t.total ∧
      s.root = t.root ∧ s.rv = t.rv ∧ s.fault = t.fault ∧ s.phase = t.phase ∧ s.rsp = t.rsp := by
  simp [SameBlock, block]

/-- `block` blanks nothing twice. -/
@[simp] theorem block_block (s : State) : block (block s) = block s := rfl

/-- Reset leaves the block as it is after reset (10_state.md R37), whatever it was doing. -/
theorem resetBlock_sameBlock (s : State) : SameBlock (resetBlock s) State.reset := rfl

/-- The block is ready exactly when it is idle and no response waits (70_reset_and_hazards.md R201). -/
theorem cmdReady_iff (s : State) : cmdReady s = true ↔ s.phase = .idle ∧ s.rsp = none := by simp [cmdReady]

/-- A response waits exactly when `RSP` is full (R201). -/
theorem rspValid_iff (s : State) : rspValid s = true ↔ ∃ r, s.rsp = some r := by
  simp [rspValid, Option.isSome_iff_exists]

end Sys2Proof.Machine
end

