-- ==== Sys2Proof/Laws/Reduction.lean ====
section
/-! SUPPORT. What extraction and the merge step can do, said once (41_reduction.md R121 to R123): callers cite these lemmas and
do not unfold the operations. -/

namespace Sys2Proof.Machine

/-! ## Weights of the members -/

theorem queueWeights_some {m : Memory} {S : List Nat} {ws : List (Nat × Weight)} (h : queueWeights m S = some ws) :
    (∀ i w, (i, w) ∈ ws ↔ i ∈ S ∧ ∃ n, m.read i = some n ∧ n.weight = w) ∧ ws.map Prod.fst = S := by
  induction S generalizing ws with
  | nil => simp_all [queueWeights]
  | cons j rest ih =>
    unfold queueWeights at h
    split at h
    · rename_i n vs hn hv
      obtain ⟨h₁, h₂⟩ := ih hv
      cases h
      refine ⟨fun i w => ?_, by simp [h₂]⟩
      simp only [List.mem_cons, h₁, Prod.mk.injEq]
      constructor
      · rintro (⟨rfl, rfl⟩ | ⟨hi, k, hk, rfl⟩)
        · exact ⟨.inl rfl, n, hn, rfl⟩
        · exact ⟨.inr hi, k, hk, rfl⟩
      · rintro ⟨rfl | hi, k, hk, rfl⟩
        · simp_all
        · exact .inr ⟨hi, k, hk, rfl⟩
    · cases h

/-- Every member has a record exactly when the weights can be read. -/
theorem queueWeights_isSome {m : Memory} {S : List Nat} (h : ∀ i ∈ S, (m.read i).isSome) :
    ∃ ws, queueWeights m S = some ws := by
  induction S with
  | nil => exact ⟨[], rfl⟩
  | cons j rest ih =>
    obtain ⟨vs, hv⟩ := ih fun i hi => h i (by simp [hi])
    obtain ⟨n, hn⟩ := Option.isSome_iff_exists.1 (h j (by simp))
    exact ⟨(j, n.weight) :: vs, by simp [queueWeights, hn, hv]⟩

/-- The least members are exactly those R121 allows. -/
theorem mem_leastMembers {m : Memory} {S : List Nat} {ws : List (Nat × Weight)} (h : queueWeights m S = some ws) (i : Nat) :
    i ∈ leastMembers ws ↔ MinOf m S i := by
  obtain ⟨hw, -⟩ := queueWeights_some h
  constructor
  · intro hi
    obtain ⟨⟨j, w⟩, hp, rfl⟩ := List.mem_map.1 hi
    obtain ⟨hp, hle⟩ := List.mem_filter.1 hp
    obtain ⟨hj, n, hn, rfl⟩ := (hw _ _).1 hp
    refine ⟨hj, n, hn, fun l hl => ?_⟩
    obtain ⟨⟨l', v⟩, hlv, rfl⟩ := List.mem_map.1 ((queueWeights_some h).2 ▸ hl)
    obtain ⟨-, k, hk, rfl⟩ := (hw _ _).1 hlv
    refine ⟨k, hk, ?_⟩
    simpa using (List.all_eq_true.1 hle) _ hlv
  · rintro ⟨hi, n, hn, hle⟩
    refine List.mem_map.2 ⟨(i, n.weight), List.mem_filter.2 ⟨(hw _ _).2 ⟨hi, n, hn, rfl⟩, ?_⟩, rfl⟩
    rw [List.all_eq_true]
    rintro ⟨j, w⟩ hjw
    obtain ⟨hj, k, hk, rfl⟩ := (hw _ _).1 hjw
    obtain ⟨k', hk', h'⟩ := hle j hj
    rw [hk] at hk'
    cases hk'
    simpa using h'

theorem exists_min_weight {m : Memory} {S : List Nat} (hS : S ≠ []) (h : ∀ i ∈ S, (m.read i).isSome) :
    ∃ i, MinOf m S i := by
  obtain ⟨i, hi, hmin⟩ := Finset.exists_min_image S.toFinset (weightAt m) (by simpa [Finset.nonempty_iff_ne_empty] using hS)
  simp only [List.mem_toFinset] at hi hmin
  obtain ⟨n, hn⟩ := Option.isSome_iff_exists.1 (h i hi)
  refine ⟨i, hi, n, hn, fun j hj => ?_⟩
  obtain ⟨k, hk⟩ := Option.isSome_iff_exists.1 (h j hj)
  refine ⟨k, hk, ?_⟩
  have := hmin j hj
  rw [weightAt_of_read hn, weightAt_of_read hk] at this
  exact this

/-! ## Picking one -/

theorem foldl_min_spec (L : List Nat) (a : Nat) :
    L.foldl min a ∈ a :: L ∧ ∀ j ∈ a :: L, L.foldl min a ≤ j := by
  induction L generalizing a with
  | nil => simp
  | cons b rest ih =>
    obtain ⟨h₁, h₂⟩ := ih (min a b)
    simp only [List.foldl_cons, List.mem_cons] at *
    refine ⟨?_, ?_⟩
    · rcases h₁ with h | h
      · rcases min_choice a b with e | e
        · exact .inl (h.trans e)
        · exact .inr (.inl (h.trans e))
      · exact .inr (.inr h)
    have h₀ := h₂ (min a b) (.inl rfl)
    rintro j (rfl | rfl | hj)
    · omega
    · omega
    · exact h₂ j (.inr hj)

theorem pickTie_mem {pol : TiePolicy} {c i : Nat} {L : List Nat} (h : pickTie pol c L = .ok i) : i ∈ L := by
  unfold pickTie at h
  split at h
  · cases h
  · cases h; simp
  · rename_i j rest _
    split at h
    · cases h
      have : c % (j :: rest).length < (j :: rest).length := Nat.mod_lt _ (by simp)
      rw [List.getD_eq_getElem _ _ this]
      exact List.getElem_mem _
    · cases h
      exact (foldl_min_spec rest j).1

theorem pickTie_ok (pol : TiePolicy) (c : Nat) {L : List Nat} (h : L ≠ []) : ∃ i, pickTie pol c L = .ok i := by
  unfold pickTie
  split
  · contradiction
  · exact ⟨_, rfl⟩
  · split <;> exact ⟨_, rfl⟩

/-- `ANY`: every entry of the list is picked by some choice. -/
theorem pickTie_any_complete {L : List Nat} {i : Nat} (h : i ∈ L) : ∃ c, pickTie .any c L = .ok i := by
  obtain ⟨p, hp, rfl⟩ := List.getElem_of_mem h
  refine ⟨p, ?_⟩
  unfold pickTie
  split
  · simp at hp
  · simp at hp; subst hp; rfl
  · dsimp only
    rw [Nat.mod_eq_of_lt hp, List.getD_eq_getElem _ _ hp]

/-- `FIFO`: the least entry, whatever the choice. -/
theorem pickTie_fifo {c i : Nat} {L : List Nat} : pickTie .fifo c L = .ok i ↔ i ∈ L ∧ ∀ j ∈ L, i ≤ j := by
  unfold pickTie
  split
  · simp
  · simp only [Except.ok.injEq, List.mem_singleton, forall_eq]
    constructor
    · rintro rfl; simp
    · rintro ⟨rfl, -⟩; rfl
  · rename_i j rest _
    have := foldl_min_spec rest j
    simp only [Except.ok.injEq]
    constructor
    · rintro rfl; exact this
    · rintro ⟨h₁, h₂⟩
      exact Nat.le_antisymm (this.2 _ h₁) (h₂ _ this.1)

/-! ## extract_min -/

/-- What is extracted is a member of least weight, under either policy and whatever the choice (R121). -/
theorem extractMin_sound {pol : TiePolicy} {c i : Nat} {m : Memory} {S : List Nat} (h : extractMin pol c m S = .ok i) :
    MinOf m S i := by
  unfold extractMin at h
  split at h
  · rename_i ws hw
    exact (mem_leastMembers hw i).1 (pickTie_mem h)
  · cases h

/-- On a non-empty set of roots that all have records, extraction succeeds. -/
theorem extractMin_ok (pol : TiePolicy) (c : Nat) {m : Memory} {S : List Nat} (hS : S ≠ [])
    (h : ∀ i ∈ S, (m.read i).isSome) : ∃ i, extractMin pol c m S = .ok i := by
  obtain ⟨ws, hw⟩ := queueWeights_isSome h
  obtain ⟨j, hj⟩ := exists_min_weight hS h
  obtain ⟨i, hi⟩ := pickTie_ok pol c (L := leastMembers ws) (List.ne_nil_of_mem ((mem_leastMembers hw j).2 hj))
  exact ⟨i, by simp [extractMin, hw, hi]⟩

theorem MinOf.isSome {m : Memory} {S : List Nat} {i : Nat} (h : MinOf m S i) : ∀ j ∈ S, (m.read j).isSome := by
  obtain ⟨-, n, -, hle⟩ := h
  intro j hj
  obtain ⟨k, hk, -⟩ := hle j hj
  simp [hk]

/-- Under `ANY` every member of least weight is extracted by some choice (R121: the rules put no law on which). -/
theorem extractMin_any_complete {m : Memory} {S : List Nat} {i : Nat} (h : MinOf m S i) :
    ∃ c, extractMin .any c m S = .ok i := by
  obtain ⟨ws, hw⟩ := queueWeights_isSome h.isSome
  obtain ⟨c, hc⟩ := pickTie_any_complete ((mem_leastMembers hw i).2 h)
  exact ⟨c, by simp [extractMin, hw, hc]⟩

/-- Under `FIFO` the least index among the members of least weight is extracted (R122). -/
theorem extractMin_fifo_iff {c i : Nat} {m : Memory} {S : List Nat} :
    extractMin .fifo c m S = .ok i ↔ MinOfFifo m S i := by
  constructor
  · intro h
    refine ⟨extractMin_sound h, fun j hj => ?_⟩
    obtain ⟨ws, hw⟩ := queueWeights_isSome hj.isSome
    simp only [extractMin, hw, pickTie_fifo] at h
    exact h.2 j ((mem_leastMembers hw j).2 hj)
  · rintro ⟨h, hle⟩
    obtain ⟨ws, hw⟩ := queueWeights_isSome h.isSome
    simp only [extractMin, hw, pickTie_fifo]
    exact ⟨(mem_leastMembers hw i).2 h, fun j hj => hle j ((mem_leastMembers hw j).1 hj)⟩

/-! ## A new node -/

/-- All that allocating a node can do. -/
theorem allocNode_ok {n : Node} {s t : State} : allocNode n s = .ok t ↔
    s.nnodes < 511 ∧
      t = { s with node := s.node.write s.nnodes n, q := qInsert s.nnodes s.q, nnodes := s.nnodes + 1 } := by
  unfold allocNode allocIndex Config.nodeCap
  split <;> simp_all [eq_comm]

/-! ## The merge step -/

/-- The state a merge step leaves: R123's writes, and two of the free choices used up. -/
def mergedFull (a b : Nat) (w : Weight) (s : State) : State := { mergedState a b w s with tie := s.tie + 2 }

theorem mergedFull_sameBlock (a b : Nat) (w : Weight) (s : State) : SameBlock (mergedFull a b w s) (mergedState a b w s) := rfl

/-- All that a merge step can do (R123): it extracts a least member `a` of `Q`, then a least member `b` of the rest, and leaves
`mergedFull a b` of the state. -/
theorem mergeStepWith_ok {pol : TiePolicy} {c₁ c₂ : Nat} {s t : State} (h : mergeStepWith pol c₁ c₂ s = .ok t) :
    ∃ a b na nb, extractMin pol c₁ s.node s.q = .ok a ∧ extractMin pol c₂ s.node (qRemove a s.q) = .ok b ∧
      s.node.read a = some na ∧ s.node.read b = some nb ∧ s.nnodes < 511 ∧
      t = mergedFull a b (na.weight + nb.weight) s := by
  unfold mergeStepWith at h
  split at h
  · cases h
  · rename_i a ha
    split at h
    · cases h
    · rename_i b hb
      split at h
      · rename_i na nb hna hnb
        rw [allocNode_ok] at h
        exact ⟨a, b, na, nb, ha, hb, (readNode_eq_ok ..).1 hna, (readNode_eq_ok ..).1 hnb, h.1, h.2⟩
      · cases h

/-- The converse: these extractions give this merge step. -/
theorem mergeStepWith_of {pol : TiePolicy} {c₁ c₂ a b : Nat} {na nb : Node} {s : State}
    (ha : extractMin pol c₁ s.node s.q = .ok a) (hb : extractMin pol c₂ s.node (qRemove a s.q) = .ok b)
    (hna : s.node.read a = some na) (hnb : s.node.read b = some nb) (hk : s.nnodes < 511) :
    mergeStepWith pol c₁ c₂ s = .ok (mergedFull a b (na.weight + nb.weight) s) := by
  simp only [mergeStepWith, ha, hb, readNode_of_read hna, readNode_of_read hnb]
  rw [allocNode_ok]
  exact ⟨hk, rfl⟩

/-- A merge step of the machine is one R123 allows. -/
theorem mergeStepWith_rel {pol : TiePolicy} {c₁ c₂ : Nat} {s t : State} (h : mergeStepWith pol c₁ c₂ s = .ok t) :
    MergeRel s t := by
  obtain ⟨a, b, na, nb, ha, hb, hna, hnb, -, rfl⟩ := mergeStepWith_ok h
  exact ⟨a, b, na, nb, extractMin_sound ha, extractMin_sound hb, hna, hnb, rfl⟩

/-- A merge step runs whenever two roots with records and a free index are there. -/
theorem mergeStepWith_runs (pol : TiePolicy) (c₁ c₂ : Nat) {s : State} (hq : s.q.Nodup) (h2 : 2 ≤ s.q.length)
    (hr : ∀ i ∈ s.q, (s.node.read i).isSome) (hk : s.nnodes < 511) : ∃ t, mergeStepWith pol c₁ c₂ s = .ok t := by
  obtain ⟨a, ha⟩ := extractMin_ok pol c₁ (S := s.q) (by rintro h; simp [h] at h2) hr
  have hma := extractMin_sound ha
  have hlen := qRemove_length hq hma.1
  obtain ⟨b, hb⟩ := extractMin_ok pol c₂ (S := qRemove a s.q) (by rintro h; simp [h] at hlen; omega)
    fun i hi => hr i ((mem_qRemove ..).1 hi).1
  have hmb := extractMin_sound hb
  obtain ⟨na, hna⟩ := Option.isSome_iff_exists.1 (hr a hma.1)
  obtain ⟨nb, hnb⟩ := Option.isSome_iff_exists.1 (hr b ((mem_qRemove ..).1 hmb.1).1)
  exact ⟨_, mergeStepWith_of ha hb hna hnb hk⟩

/-! ## Ties -/

/-- Without a tie there is one member of least weight (R121). -/
theorem MinOf.unique {m : Memory} {S : List Nat} {i j : Nat} (h : ¬ Tied m S) (hi : MinOf m S i) (hj : MinOf m S j) : i = j := by
  by_contra e
  exact h ⟨i, j, hi, hj, e⟩

/-- Without a tie a merge step has one successor (R203). -/
theorem MergeRel.unique {s t u : State} (h : ¬ MergeTied s) (ht : MergeRel s t) (hu : MergeRel s u) : SameBlock t u := by
  obtain ⟨a, b, na, nb, ha, hb, hna, hnb, ht⟩ := ht
  obtain ⟨a', b', na', nb', ha', hb', hna', hnb', hu⟩ := hu
  obtain rfl := ha.unique (fun e => h (.inl e)) ha'
  obtain rfl := hb.unique (fun e => h (.inr ⟨a, ha, e⟩)) hb'
  rw [hna] at hna'
  rw [hnb] at hnb'
  cases hna'
  cases hnb'
  exact ht.trans hu.symm

/-! ## Responses, acceptance -/

theorem respondNode_next {i : Nat} {s t : State} : respondNode i s = .next t ↔
    ∃ n, s.node.read i = some n ∧ t = respond (rxWord i n) s := by
  unfold respondNode readNode
  cases h : s.node.read i <;> simp [eq_comm]

theorem respondNode_of_read {i : Nat} {s : State} {n : Node} (h : s.node.read i = some n) :
    respondNode i s = .next (respond (rxWord i n) s) := respondNode_next.2 ⟨n, h, rfl⟩

theorem whenReady_ready {s : State} (h : cmdReady s = true) (act : State → Host.Outcome State Fault Refusal) :
    whenReady s act = act s := by simp [whenReady, h]

theorem whenReady_held {s : State} (h : cmdReady s = false) (act : State → Host.Outcome State Fault Refusal) :
    whenReady s act = .next s := by simp [whenReady, h]

end Sys2Proof.Machine
end

