-- ==== Sys2Proof/Laws/Commands.lean ====
section
/-! SUPPORT. One lemma per command and per kind of step: everything it can do when it answers a next state (40_forest_load.md,
41_reduction.md, 42_readout.md, 70_reset_and_hazards.md R203 to R206). -/

namespace Sys2Proof.Machine

theorem leavesFull_iff (s : State) : leavesFull s = true ↔ s.nleaf = 256 := by
  unfold leavesFull Config.maxLeaves
  exact decide_eq_true_iff

theorem totalOverflows_iff (t w : Weight) : totalOverflows t w = true ↔ t.toNat + w.toNat > 4294967295 := by
  simp [totalOverflows, Config.maxWeight]

theorem indexBad_iff (s : State) (k : IdxField) : indexBad s k = true ↔ s.nnodes ≤ k.toNat := by simp [indexBad]

/-- The state a successful PUSH leaves (R101). -/
def pushedState (b : Byte) (x : Weight) (s : State) : State :=
  { s with
    node := s.node.write s.nnodes (.leaf b x), q := qInsert s.nnodes s.q, nnodes := s.nnodes + 1, nleaf := s.nleaf + 1,
    count := s.count + 1, total := s.total + x, rv := false, rsp := some (rxWord s.nnodes (.leaf b x)) }

/-- All that CLEAR can do. -/
theorem execClear_next {s t : State} : execClear s = .next t ↔
    (cmdReady s = false ∧ t = s) ∨ (cmdReady s = true ∧ t = respond (rsWord (clearAll s)) (clearAll s)) := by
  cases h : cmdReady s <;> simp [execClear, whenReady, h, eq_comm]

/-- All that PUSH can do. -/
theorem execPush_next {b : Byte} {x : Weight} {s t : State} : execPush b x s = .next t ↔
    (cmdReady s = false ∧ t = s) ∨
    (cmdReady s = true ∧ s.nleaf = 256 ∧ t = raise .full s) ∨
    (cmdReady s = true ∧ s.nleaf ≠ 256 ∧ s.total.toNat + x.toNat > 4294967295 ∧ t = raise .weightOverflow s) ∨
    (cmdReady s = true ∧ s.nleaf ≠ 256 ∧ s.total.toNat + x.toNat ≤ 4294967295 ∧ s.nnodes < 511 ∧ t = pushedState b x s) := by
  cases h : cmdReady s
  · simp [execPush, whenReady, h, eq_comm]
  · simp only [execPush, whenReady, h, if_true, leavesFull_iff, totalOverflows_iff]
    by_cases h₁ : s.nleaf = 256
    · simp [h₁, eq_comm]
    · by_cases h₂ : s.total.toNat + x.toNat > 4294967295
      · simp [h₁, h₂, eq_comm]
      · simp only [h₁, h₂, if_false, ne_eq, not_false_eq_true, true_and, false_and, false_or, Bool.true_eq_false,
          not_lt.1 h₂]
        by_cases h₃ : s.nnodes < 511
        · simp only [allocNode, allocIndex, Config.nodeCap, h₃, if_true, true_and]
          rw [respondNode_of_read (n := .leaf b x) (by simp)]
          simp [pushedState, respond, eq_comm]
        · simp [allocNode, allocIndex, Config.nodeCap, h₃]

/-- All that MERGE can do. -/
theorem execMerge_next {s t : State} : execMerge s = .next t ↔
    (cmdReady s = false ∧ t = s) ∨
    (cmdReady s = true ∧ s.count = 0 ∧ t = raise .emptyInput s) ∨
    (cmdReady s = true ∧ s.count = 1 ∧ t = raise .tooFew s) ∨
    (cmdReady s = true ∧ 2 ≤ s.count ∧ ∃ u n, mergeStep s = .ok u ∧ u.node.read s.nnodes = some n ∧
      t = respond (rxWord s.nnodes n) { u with rv := false }) := by
  cases h : cmdReady s
  · simp [execMerge, whenReady, h, eq_comm]
  · simp only [execMerge, whenReady, h, if_true]
    by_cases h₁ : s.count = 0
    · simp [h₁, eq_comm]
    · by_cases h₂ : s.count = 1
      · simp [h₂, eq_comm]
      · have h₃ : 2 ≤ s.count := by omega
        simp only [h₁, h₂, h₃, if_false, false_and, and_false, false_or, true_and, Bool.true_eq_false]
        cases mergeStep s with
        | ok u => simp [respondNode_next, allocIndex]
        | error f => simp

/-- All that REDUCE can do at its acceptance. -/
theorem execReduce_next {s t : State} : execReduce s = .next t ↔
    (cmdReady s = false ∧ t = s) ∨
    (cmdReady s = true ∧ s.count = 0 ∧ t = raise .emptyInput s) ∨
    (cmdReady s = true ∧ 1 ≤ s.count ∧ t = { s with phase := .busy }) := by
  cases h : cmdReady s
  · simp [execReduce, whenReady, h, eq_comm]
  · by_cases h₁ : s.count = 0
    · simp [execReduce, whenReady, h, h₁, eq_comm]
    · simp [execReduce, whenReady, h, h₁, eq_comm]
      omega

/-- All that RDNODE can do. -/
theorem execRdnode_next {k : IdxField} {s t : State} : execRdnode k s = .next t ↔
    (cmdReady s = false ∧ t = s) ∨
    (cmdReady s = true ∧ s.nnodes ≤ k.toNat ∧ t = raise .badIndex s) ∨
    (cmdReady s = true ∧ k.toNat < s.nnodes ∧ ∃ n, s.node.read k.toNat = some n ∧ t = respond (rnWord n) s) := by
  cases h : cmdReady s
  · simp [execRdnode, whenReady, h, eq_comm]
  · simp only [execRdnode, whenReady, h, if_true, indexBad_iff]
    by_cases h₁ : s.nnodes ≤ k.toNat
    · simp [h₁, eq_comm, not_lt.2 h₁]
    · simp only [h₁, if_false, false_and, and_false, false_or, true_and, not_le.1 h₁, Bool.true_eq_false, readNode]
      cases s.node.read k.toNat <;> simp [eq_comm]

/-- All that RDSTAT can do. -/
theorem execRdstat_next {s t : State} : execRdstat s = .next t ↔
    (cmdReady s = false ∧ t = s) ∨ (cmdReady s = true ∧ t = respond (rsWord s) s) := by
  cases h : cmdReady s <;> simp [execRdstat, whenReady, h, eq_comm]

/-- All that a `Work` step can do. -/
theorem work_next {s t : State} : work s = .next t ↔
    (1 < s.count ∧ mergeStep s = .ok t) ∨
    (s.count ≤ 1 ∧ ∃ r n, s.q = [r] ∧ s.node.read r = some n ∧ t = finishedState r n s) := by
  unfold work
  by_cases h : s.count > 1
  · simp only [h, if_true, true_and, not_le.2 h, false_and, or_false]
    cases mergeStep s <;> simp
  · simp only [h, if_false, false_and, false_or, not_lt.1 h, true_and]
    unfold finishReduce
    split
    · rename_i r hq
      rw [respondNode_next]
      simp only [hq, List.cons.injEq, and_true]
      have hf : ∀ n, respond (rxWord r n) { s with root := r, rv := true, phase := .idle } = finishedState r n s :=
        fun _ => rfl
      constructor
      · rintro ⟨n, hn, rfl⟩
        exact ⟨r, n, rfl, hn, by rw [← hf, ← hq]⟩
      · rintro ⟨r', n, rfl, hn, rfl⟩
        exact ⟨n, hn, by rw [← hf, ← hq]⟩
    · rename_i hq
      simp only [reduceCtorEq, false_iff, not_exists, not_and]
      intro r n hr
      exact absurd hr (hq r)

/-- All that the engine can do with a step the host leaves it. -/
theorem engineTurn_next {s t : State} : engineTurn s = .next t ↔
    (s.phase = .idle ∧ t = s) ∨ (s.phase = .busy ∧ work s = .next t) := by
  unfold engineTurn
  cases s.phase <;> simp [eq_comm]

/-- All that one step can do (R203). -/
theorem step_next {s t : State} (h : step s = .next t) :
    (s.host = [] ∧ engineTurn s = .next t) ∨
    (∃ rest, s.host = .reset :: rest ∧ t = resetBlock { s with host := rest }) ∨
    (∃ rest, s.host = .wait :: rest ∧ engineTurn { s with host := rest } = .next t) ∨
    (∃ rest r, s.host = .take :: rest ∧ s.rsp = some r ∧
      t = { s with rsp := none, taken := s.taken ++ [r], host := rest }) ∨
    (∃ rest, s.host = .take :: rest ∧ s.rsp = none ∧ engineTurn s = .next t) ∨
    (∃ w rest i, s.host = .issue w :: rest ∧ cmdReady s = true ∧ decode w = .ok i ∧
      exec i { s with host := rest } = .next t) ∨
    (∃ w rest e, s.host = .issue w :: rest ∧ cmdReady s = true ∧ decode w = .error e ∧
      t = raise .illegalCommand { s with host := rest }) ∨
    (∃ w rest, s.host = .issue w :: rest ∧ cmdReady s = false ∧ engineTurn s = .next t) := by
  unfold step turn at h
  split at h
  · exact .inl ⟨by assumption, h⟩
  · rename_i rest hh; cases h; exact .inr (.inl ⟨rest, hh, rfl⟩)
  · rename_i rest hh; exact .inr (.inr (.inl ⟨rest, hh, h⟩))
  · rename_i rest hh
    split at h
    · rename_i hv
      obtain ⟨r, hr⟩ := (rspValid_iff s).1 hv
      cases h
      exact .inr (.inr (.inr (.inl ⟨rest, r, hh, hr, by simp [takeResponse, hr]⟩)))
    · rename_i hv
      have : s.rsp = none := by cases hr : s.rsp <;> simp_all [rspValid]
      exact .inr (.inr (.inr (.inr (.inl ⟨rest, hh, this, h⟩))))
  · rename_i w rest hh
    split at h
    · rename_i hr
      unfold issue at h
      split at h
      · rename_i i hd; exact .inr (.inr (.inr (.inr (.inr (.inl ⟨w, rest, i, hh, hr, hd, h⟩)))))
      · rename_i e hd; cases h
        exact .inr (.inr (.inr (.inr (.inr (.inr (.inl ⟨w, rest, e, hh, hr, hd, rfl⟩))))))
    · rename_i hr
      exact .inr (.inr (.inr (.inr (.inr (.inr (.inr ⟨w, rest, hh, by simpa using hr, h⟩))))))

end Sys2Proof.Machine
end

