-- ==== Sys2Proof/Laws/Encoding.lean ====
section
/-! SUPPORT. The fields of words (30_encoding.md R71, R72, R76), and the operand ranges that the field types of a command already
give (R79). -/

namespace Sys2Proof

/-- A bit of a field is a bit of the word. -/
theorem field_getLsbD (w : Word) (lo len i : Nat) :
    (field w lo len).getLsbD i = (decide (i < len) && w.getLsbD (lo + i)) := by
  simp [field, BitVec.getLsbD_extractLsb']

/-- A field is zero when every bit of the word in its range is. -/
theorem field_eq_zero_iff (w : Word) (lo len : Nat) : field w lo len = 0#len ↔ ∀ i < len, w.getLsbD (lo + i) = false := by
  constructor
  · intro h i hi
    have hb : (field w lo len).getLsbD i = false := by rw [h]; simp
    rw [field_getLsbD] at hb
    simpa [hi] using hb
  · intro h
    apply BitVec.eq_of_getLsbD_eq
    intro i hi
    simp [field_getLsbD, h i hi]

/-- Every command has operands in the ranges of R79: its field types are these ranges. -/
theorem Instr.wellFormed_of_types (i : Instr) : i.wellFormed = true := by
  cases i with
  | push b x => have := b.isLt; have := x.isLt; simp [Instr.wellFormed, byteFits, weightFits, *]
  | rdnode k => have := k.isLt; simp [Instr.wellFormed, idxFits, *]
  | _ => rfl

namespace Machine

/-- `zext_12` loses nothing of a number below 4096. -/
theorem zext12_toNat {n : Nat} (h : n < 4096) : (zext12 n).toNat = n := by
  simp [zext12, Nat.mod_eq_of_lt h]

/-! ## The numbers words stand for -/

/-- Appending words adds their values, the high one shifted. -/
theorem toNat_append_eq {m n : Nat} (x : BitVec m) (y : BitVec n) : (x ++ y).toNat = x.toNat * 2 ^ n + y.toNat := by
  rw [BitVec.toNat_append, ← Nat.shiftLeft_add_eq_or_of_lt y.isLt, Nat.shiftLeft_eq]

/-- The value of a field. -/
theorem field_toNat (w : Word) (lo len : Nat) : (field w lo len).toNat = w.toNat / 2 ^ lo % 2 ^ len := by
  simp [field, BitVec.extractLsb'_toNat, Nat.shiftRight_eq_div_pow]

/-- The value of an RE word. -/
theorem reWord_toNat (e : Error) : (reWord e).toNat = e.code.toNat * 2 ^ 60 := by cases e <;> decide

/-- The value of an RX word. -/
theorem rxWord_toNat (i : Nat) (n : Node) :
    (rxWord i n).toNat = n.tag.toNat * 2 ^ 56 + (zext12 i).toNat * 2 ^ 32 + n.weight.toNat := by
  unfold rxWord
  simp only [toNat_append_eq, BitVec.toNat_ofNat]
  omega

/-- The value of an RN word. -/
theorem rnWord_toNat (n : Node) : (rnWord n).toNat =
    match n with
    | .leaf b w => b.toNat * 2 ^ 32 + w.toNat
    | .internal l r w => 2 ^ 56 + (zext12 l).toNat * 2 ^ 44 + (zext12 r).toNat * 2 ^ 32 + w.toNat := by
  cases n <;> (unfold rnWord; simp only [toNat_append_eq, BitVec.toNat_ofNat]; omega)

/-- The value of the status word. -/
theorem rsWord_toNat (s : State) : (rsWord s).toNat =
    s.fault.toNat * 2 ^ 52 + s.rv.toNat * 2 ^ 48 + (zext12 s.root).toNat * 2 ^ 36 + (zext12 s.nnodes).toNat * 2 ^ 24 +
      (zext12 s.nleaf).toNat * 2 ^ 12 + (zext12 s.count).toNat := by
  unfold rsWord
  simp only [toNat_append_eq, BitVec.toNat_ofNat, BitVec.toNat_ofBool]
  omega

/-- An error word has a nonzero `RC` (R77). -/
theorem rcOf_reWord (e : Error) : rcOf (reWord e) ≠ 0#4 := by cases e <;> decide

/-- An RX word has `RC` = 0. -/
theorem rcOf_rxWord (i : Nat) (n : Node) : rcOf (rxWord i n) = 0#4 := by
  apply BitVec.eq_of_toNat_eq
  rw [rcOf, opOf, field_toNat, rxWord_toNat]
  have := n.weight.isLt; have := (zext12 i).isLt; have := n.tag.isLt
  simp; omega

/-- An RN word has `RC` = 0. -/
theorem rcOf_rnWord (n : Node) : rcOf (rnWord n) = 0#4 := by
  apply BitVec.eq_of_toNat_eq
  rw [rcOf, opOf, field_toNat, rnWord_toNat]
  cases n with
  | leaf b w => have := w.isLt; have := b.isLt; simp; omega
  | internal l r w => have := w.isLt; have := (zext12 l).isLt; have := (zext12 r).isLt; simp; omega

/-- The status word has `RC` = 0. -/
theorem rcOf_rsWord (s : State) : rcOf (rsWord s) = 0#4 := by
  apply BitVec.eq_of_toNat_eq
  rw [rcOf, opOf, field_toNat, rsWord_toNat]
  have := s.fault.isLt
  have hrv : s.rv.toNat < 2 := by cases s.rv <;> simp
  have := (zext12 s.root).isLt; have := (zext12 s.nnodes).isLt; have := (zext12 s.nleaf).isLt
  have := (zext12 s.count).isLt
  simp; omega

end Machine

end Sys2Proof
end

