-- ==== Sys2Proof/Laws/Trees.lean ====
section
/-! SUPPORT. The trees in the store: the walks of 10_state.md R34 and 00_scope.md R12 unfolded one node at a time, and what a new
record does to them (a new node changes no older tree). -/

namespace Sys2Proof.Machine

/-- V5: children are older than their parent. -/
abbrev Below (m : Memory) : Prop := ∀ k l r w, m.read k = some (.internal l r w) → l < k ∧ r < k

/-- Two stores agree up to index `i`. -/
abbrev AgreeTo (i : Nat) (m m' : Memory) : Prop := ∀ j ≤ i, m.read j = m'.read j

theorem agreeTo_write (m : Memory) {i k : Nat} (h : i < k) (n : Node) : AgreeTo i (m.write k n) m := fun j hj =>
  read_write_ne m n (by omega)

/-! ## Leaves -/

/-- The walk needs no more depth than the index, and looks at no younger record. -/
theorem leavesFrom_agree {m m' : Memory} (hb : Below m) {i f g : Nat} (ha : AgreeTo i m m') (hf : i < f) (hg : i < g) :
    leavesFrom m f i = leavesFrom m' g i := by
  induction i using Nat.strong_induction_on generalizing f g with
  | _ i ih =>
    obtain ⟨f, rfl⟩ : ∃ f', f = f' + 1 := ⟨f - 1, by omega⟩
    obtain ⟨g, rfl⟩ : ∃ g', g = g' + 1 := ⟨g - 1, by omega⟩
    unfold leavesFrom
    rw [← ha i le_rfl]
    rcases hr : m.read i with _ | ⟨b, w⟩ | ⟨l, r, w⟩
    · rfl
    · rfl
    · obtain ⟨hl, hr'⟩ := hb i l r w hr
      dsimp only
      rw [ih l hl (f := f) (g := g) (fun j hj => ha j (by omega)) (by omega) (by omega),
        ih r hr' (f := f) (g := g) (fun j hj => ha j (by omega)) (by omega) (by omega)]

theorem leavesUnder_write {m : Memory} (hb : Below m) {i k : Nat} (h : i < k) (n : Node) :
    leavesUnder (m.write k n) i = leavesUnder m i :=
  (leavesFrom_agree hb (fun j hj => (agreeTo_write m h n j hj).symm) (by omega) (by omega)).symm

theorem leavesUnder_leaf {m : Memory} {i : Nat} {b : Byte} {w : Weight} (h : m.read i = some (.leaf b w)) :
    leavesUnder m i = [i] := by simp [leavesUnder, leavesFrom, h]

theorem leavesUnder_internal {m : Memory} (hb : Below m) {k l r : Nat} {w : Weight}
    (h : m.read k = some (.internal l r w)) : leavesUnder m k = leavesUnder m l ++ leavesUnder m r := by
  obtain ⟨hl, hr⟩ := hb k l r w h
  have e : leavesUnder m k = leavesFrom m k l ++ leavesFrom m k r := by simp [leavesUnder, leavesFrom, h]
  rw [e, leavesFrom_agree hb (fun _ _ => rfl) hl (Nat.lt_succ_self l),
    leavesFrom_agree hb (fun _ _ => rfl) hr (Nat.lt_succ_self r)]
  rfl

theorem leavesUnder_none {m : Memory} {i : Nat} (h : m.read i = none) : leavesUnder m i = [] := by
  simp [leavesUnder, leavesFrom, h]

/-! ## Nodes -/

theorem nodesFrom_agree {m m' : Memory} (hb : Below m) {i f g : Nat} (ha : AgreeTo i m m') (hf : i < f) (hg : i < g) :
    nodesFrom m f i = nodesFrom m' g i := by
  induction i using Nat.strong_induction_on generalizing f g with
  | _ i ih =>
    obtain ⟨f, rfl⟩ : ∃ f', f = f' + 1 := ⟨f - 1, by omega⟩
    obtain ⟨g, rfl⟩ : ∃ g', g = g' + 1 := ⟨g - 1, by omega⟩
    unfold nodesFrom
    rw [← ha i le_rfl]
    rcases hr : m.read i with _ | ⟨b, w⟩ | ⟨l, r, w⟩
    · rfl
    · rfl
    · obtain ⟨hl, hr'⟩ := hb i l r w hr
      dsimp only
      rw [ih l hl (f := f) (g := g) (fun j hj => ha j (by omega)) (by omega) (by omega),
        ih r hr' (f := f) (g := g) (fun j hj => ha j (by omega)) (by omega) (by omega)]

theorem nodesUnder_leaf {m : Memory} {i : Nat} {b : Byte} {w : Weight} (h : m.read i = some (.leaf b w)) :
    nodesUnder m i = [i] := by simp [nodesUnder, nodesFrom, h]

theorem nodesUnder_internal {m : Memory} (hb : Below m) {k l r : Nat} {w : Weight}
    (h : m.read k = some (.internal l r w)) : nodesUnder m k = k :: (nodesUnder m l ++ nodesUnder m r) := by
  obtain ⟨hl, hr⟩ := hb k l r w h
  have e : nodesUnder m k = k :: (nodesFrom m k l ++ nodesFrom m k r) := by simp [nodesUnder, nodesFrom, h]
  rw [e, nodesFrom_agree hb (fun _ _ => rfl) hl (Nat.lt_succ_self l),
    nodesFrom_agree hb (fun _ _ => rfl) hr (Nat.lt_succ_self r)]
  rfl

/-! ## Codes -/

theorem codesFrom_agree {m m' : Memory} (hb : Below m) {i f g : Nat} (p : List Bool) (ha : AgreeTo i m m') (hf : i < f)
    (hg : i < g) : codesFrom m f i p = codesFrom m' g i p := by
  induction i using Nat.strong_induction_on generalizing f g p with
  | _ i ih =>
    obtain ⟨f, rfl⟩ : ∃ f', f = f' + 1 := ⟨f - 1, by omega⟩
    obtain ⟨g, rfl⟩ : ∃ g', g = g' + 1 := ⟨g - 1, by omega⟩
    unfold codesFrom
    rw [← ha i le_rfl]
    rcases hr : m.read i with _ | ⟨b, w⟩ | ⟨l, r, w⟩
    · rfl
    · rfl
    · obtain ⟨hl, hr'⟩ := hb i l r w hr
      dsimp only
      rw [ih l hl (f := f) (g := g) _ (fun j hj => ha j (by omega)) (by omega) (by omega),
        ih r hr' (f := f) (g := g) _ (fun j hj => ha j (by omega)) (by omega) (by omega)]

/-- The accumulated code goes in front of every code found below. -/
theorem codesFrom_append (m : Memory) (f i : Nat) (p q : List Bool) :
    codesFrom m f i (p ++ q) = (codesFrom m f i q).map fun e => { e with code := p ++ e.code } := by
  induction f generalizing i q with
  | zero => rfl
  | succ f ih =>
    unfold codesFrom
    rcases m.read i with _ | ⟨b, w⟩ | ⟨l, r, w⟩
    · rfl
    · rfl
    · simp only [List.append_assoc, ih, List.map_append]

/-- The codes under a leaf: the empty code (42_readout.md R153). -/
theorem codes_leaf {m : Memory} {i : Nat} {b : Byte} {w : Weight} (h : m.read i = some (.leaf b w)) :
    codes m i = [{ byte := b, weight := w, code := [] }] := by simp [codes, codesFrom, h]

/-- The codes under an internal node: '0' before the codes on the left, '1' before those on the right (00_scope.md R12). -/
theorem codes_internal {m : Memory} (hb : Below m) {k l r : Nat} {w : Weight} (h : m.read k = some (.internal l r w)) :
    codes m k = ((codes m l).map fun e => { e with code := false :: e.code }) ++
      (codes m r).map fun e => { e with code := true :: e.code } := by
  obtain ⟨hl, hr⟩ := hb k l r w h
  have e : codes m k = codesFrom m k l ([false] ++ []) ++ codesFrom m k r ([true] ++ []) := by
    simp [codes, codesFrom, h]
  rw [e, codesFrom_append, codesFrom_append, codesFrom_agree hb [] (fun _ _ => rfl) hl (Nat.lt_succ_self l),
    codesFrom_agree hb [] (fun _ _ => rfl) hr (Nat.lt_succ_self r)]
  rfl

/-! ## Lists of leaves and internal nodes -/

theorem mem_leafIndices {m : Memory} (wf : m.wf) (i : Nat) : i ∈ leafIndices m ↔ ∃ b w, m.read i = some (.leaf b w) := by
  unfold leafIndices
  constructor
  · intro h
    obtain ⟨⟨j, n⟩, hn, rfl⟩ := List.mem_map.1 h
    obtain ⟨hn, hl⟩ := List.mem_filter.1 hn
    cases n with
    | leaf b w => exact ⟨b, w, read_of_mem wf hn⟩
    | internal l r w => simp [Node.isLeaf] at hl
  · rintro ⟨b, w, h⟩
    exact List.mem_map.2 ⟨_, List.mem_filter.2 ⟨mem_of_read h, rfl⟩, rfl⟩

theorem mem_internalIndices {m : Memory} (wf : m.wf) (i : Nat) :
    i ∈ internalIndices m ↔ ∃ l r w, m.read i = some (.internal l r w) := by
  unfold internalIndices
  constructor
  · intro h
    obtain ⟨⟨j, n⟩, hn, rfl⟩ := List.mem_map.1 h
    obtain ⟨hn, hl⟩ := List.mem_filter.1 hn
    cases n with
    | leaf b w => simp [Node.isLeaf] at hl
    | internal l r w => exact ⟨l, r, w, read_of_mem wf hn⟩
  · rintro ⟨l, r, w, h⟩
    exact List.mem_map.2 ⟨_, List.mem_filter.2 ⟨mem_of_read h, rfl⟩, rfl⟩

/-- A record written above all others: the two lists grow at the end. -/
theorem leafIndices_write_above {m : Memory} {k : Nat} (n : Node) (h : ∀ j ∈ m.map Prod.fst, j < k) :
    leafIndices (m.write k n) = leafIndices m ++ (if n.isLeaf then [k] else []) := by
  rw [write_above n h]
  unfold leafIndices
  cases n <;> simp [Node.isLeaf]

theorem internalIndices_write_above {m : Memory} {k : Nat} (n : Node) (h : ∀ j ∈ m.map Prod.fst, j < k) :
    internalIndices (m.write k n) = internalIndices m ++ (if n.isLeaf then [] else [k]) := by
  rw [write_above n h]
  unfold internalIndices
  cases n <;> simp [Node.isLeaf]

end Sys2Proof.Machine
end

