-- ==== Sys2Proof/Laws/Invariant.lean ====
section
/-! SUPPORT. What keeps the invariant of 10_state.md R34: a step that leaves the trees alone, a new leaf, a merge. -/

namespace Sys2Proof.Machine

/-! ## What the invariant says of reads and sums -/

/-- A step that writes no record, counter or `Q` keeps the invariant if it keeps V8, V9 and the ranges. -/
theorem StateInv.of_same_tree {s t : State} (h : StateInv s) (hn : t.node = s.node) (h1 : t.nnodes = s.nnodes)
    (h2 : t.nleaf = s.nleaf) (h3 : t.count = s.count) (h4 : t.q = s.q) (h5 : t.total = s.total)
    (v8 : t.rv = true → t.count = 1 ∧ t.q = [t.root]) (v9 : t.phase = .busy → t.rsp = none ∧ 1 ≤ t.count)
    (hf : t.fault.getLsbD 6 = false ∧ t.fault.getLsbD 7 = false) (hr : t.root ≤ 510) : StateInv t := by
  constructor
  all_goals first | assumption | (simp only [hn, h1, h2, h3, h4, h5]; first
    | exact h.memWf | exact h.queueWf | exact h.stored | exact h.leaves | exact h.v1_count | exact h.v1_members
    | exact h.v2_nodes | exact h.v2_count | exact h.v3_nleaf | exact h.v3_nnodes | exact h.v3_count | exact h.v3_some
    | exact h.v4_owned | exact h.v4_distinct | exact h.v5 | exact h.v6_sum | exact h.v6_under | exact h.v6_queue
    | exact h.v6_leaves | exact h.v7 | exact h.v10 | exact h.v11)

theorem StateInv.listed_lt {s : State} (h : StateInv s) : ∀ j ∈ s.node.map Prod.fst, j < s.nnodes := fun j hj =>
  (h.stored j).1 ((read_isSome_iff ..).2 hj)

theorem StateInv.read_lt {s : State} (h : StateInv s) {i : Nat} {n : Node} (hr : s.node.read i = some n) : i < s.nnodes :=
  (h.stored i).1 (by simp [hr])

theorem weightAt_write_lt (m : Memory) {i k : Nat} (n : Node) (h : i < k) : weightAt (m.write k n) i = weightAt m i := by
  rw [weightAt_write, if_neg (by omega)]

theorem map_weight_write {m : Memory} {L : List Nat} {k : Nat} (n : Node) (h : ∀ i ∈ L, i < k) :
    L.map (weightAt (m.write k n)) = L.map (weightAt m) :=
  List.map_congr_left fun i hi => weightAt_write_lt m n (h i hi)

theorem StateInv.leavesUnder_lt {s : State} (h : StateInv s) {i : Nat} (hi : i < s.nnodes) : ∀ j ∈ leavesUnder s.node i, j < s.nnodes := by
  induction i using Nat.strong_induction_on with
  | _ i ih =>
    rcases hr : s.node.read i with _ | ⟨b, w⟩ | ⟨l, r, w⟩
    · simp [leavesUnder_none hr]
    · simp [leavesUnder_leaf hr, hi]
    · have hb := h.v5 _ _ _ _ hr
      rw [leavesUnder_internal h.v5 hr]
      intro j hj
      rcases List.mem_append.1 hj with hj | hj
      · exact ih l hb.1 (by omega) j hj
      · exact ih r hb.2 (by omega) j hj

/-! ## New nodes -/

/-- A new leaf keeps the invariant (40_forest_load.md R101). -/
theorem StateInv.pushed {s t : State} (h : StateInv s) (b : Byte) (x : Weight) (hl : s.nleaf ≠ 256)
    (ht : s.total.toNat + x.toNat ≤ 2^32 - 1) (hrdy : s.phase = .idle)
    (e : t = { s with
        node := s.node.write s.nnodes (.leaf b x), q := qInsert s.nnodes s.q, nnodes := s.nnodes + 1, nleaf := s.nleaf + 1,
        count := s.count + 1, total := s.total + x, rv := false, rsp := t.rsp }) : StateInv t := by
  have hq : qInsert s.nnodes s.q = s.q ++ [s.nnodes] := qInsert_above h.v1_members
  have hnl := h.v3_nleaf
  have hvc := h.v2_count
  have hsum : (s.total + x).toNat = s.total.toNat + x.toNat := by
    rw [BitVec.toNat_add, Nat.mod_eq_of_lt (by omega)]
  have hread : ∀ i, (s.node.write s.nnodes (.leaf b x)).read i = if i = s.nnodes then some (.leaf b x) else s.node.read i :=
    fun i => read_write ..
  have hint : ∀ k l r w, (s.node.write s.nnodes (.leaf b x)).read k = some (.internal l r w) → s.node.read k = some (.internal l r w) := by
    intro k l r w hk
    rw [hread] at hk
    split at hk
    · cases hk
    · exact hk
  have hpar : ∀ k i, IsParent (s.node.write s.nnodes (.leaf b x)) k i ↔ IsParent s.node k i := by
    intro k i
    constructor
    · rintro ⟨l, r, w, hk, hc⟩
      exact ⟨l, r, w, hint _ _ _ _ hk, hc⟩
    · rintro ⟨l, r, w, hk, hc⟩
      refine ⟨l, r, w, ?_, hc⟩
      rw [hread, if_neg (by have := h.read_lt hk; omega)]
      exact hk
  have hcz : s.nleaf = 0 → s.count = 0 := by omega
  rw [e]
  constructor
  · exact write_wf h.memWf _ _
  · exact qInsert_wf h.queueWf _
  · intro i
    dsimp only
    rw [hread]
    split
    · simp; omega
    · rw [h.stored]; omega
  · rw [leafIndices_write_above _ h.listed_lt, h.leaves]; simp [Node.isLeaf]
  · simp [hq, h.v1_count]
  · intro i hi
    rcases (mem_qInsert ..).1 hi with rfl | hi
    · simp
    · have := h.v1_members i hi; dsimp only; omega
  · rw [internalIndices_write_above _ h.listed_lt]; simp [Node.isLeaf]; have := h.v2_nodes; omega
  · dsimp only; omega
  · dsimp only; omega
  · have := h.v3_some; dsimp only; omega
  · have := h.v3_some; have := h.v2_nodes; have := h.v3_count; dsimp only; omega
  · dsimp only; omega
  · intro i hi
    dsimp only at hi
    simp only [hpar, mem_qInsert]
    by_cases hk : i = s.nnodes
    · left
      refine ⟨.inl hk, ?_⟩
      rintro k ⟨l, r, w, hr, hc⟩
      have := h.v5 _ _ _ _ hr
      have := h.read_lt hr
      omega
    · rcases h.v4_owned i (by omega) with hh | hh
      · exact .inl ⟨.inr hh.1, hh.2⟩
      · exact .inr ⟨by tauto, hh.2⟩
  · intro k l r w hr; exact h.v4_distinct _ _ _ _ (hint _ _ _ _ hr)
  · intro k l r w hr; exact h.v5 _ _ _ _ (hint _ _ _ _ hr)
  · intro k l r w hr
    have hr := hint _ _ _ _ hr
    have := h.v5 _ _ _ _ hr
    have := h.read_lt hr
    dsimp only
    rw [weightAt_write_lt _ _ (by omega), weightAt_write_lt _ _ (by omega)]
    exact h.v6_sum _ _ _ _ hr
  · intro i hi
    dsimp only at hi ⊢
    by_cases hk : i = s.nnodes
    · subst hk
      rw [leavesUnder_leaf (read_write_same ..)]
      simp
    · have hi : i < s.nnodes := by omega
      rw [weightAt_write_lt _ _ hi, leavesUnder_write h.v5 hi, map_weight_write _ (h.leavesUnder_lt hi)]
      exact h.v6_under i hi
  · dsimp only
    rw [hq, List.map_append, List.sum_append, map_weight_write _ h.v1_members, h.v6_queue, hsum]
    simp [weightAt, Node.weight]
  · dsimp only
    rw [leafIndices_write_above _ h.listed_lt]
    simp only [Node.isLeaf, if_true, List.map_append, List.sum_append]
    rw [map_weight_write _ ?_, h.v6_leaves, hsum]
    · simp [weightAt, Node.weight]
    · intro i hi
      obtain ⟨b, w, hr⟩ := (mem_leafIndices h.memWf i).1 hi
      exact h.read_lt hr
  · intro k l r w hr
    have hr := hint _ _ _ _ hr
    have := h.v5 _ _ _ _ hr
    have := h.read_lt hr
    dsimp only
    rw [weightAt_write_lt _ _ (by omega), weightAt_write_lt _ _ (by omega)]
    exact h.v7 _ _ _ _ hr
  · simp
  · simp [hrdy]
  · dsimp only
    rw [hq, List.flatMap_append, leafIndices_write_above _ h.listed_lt]
    simp only [Node.isLeaf, if_true]
    refine List.Perm.append ?_ ?_
    · have : s.q.flatMap (leavesUnder (s.node.write s.nnodes (.leaf b x))) = s.q.flatMap (leavesUnder s.node) := by
        simp only [List.flatMap_def]
        rw [List.map_congr_left]
        intro i hi
        exact leavesUnder_write h.v5 (h.v1_members i hi) _
      rw [this]
      exact h.v10
    · simp [leavesUnder_leaf (read_write_same s.node s.nnodes (.leaf b x))]
  · dsimp only
    intro hc
    have : s.count = 0 := by omega
    have : s.q = [] := List.length_eq_zero_iff.1 (h.v1_count ▸ this)
    rw [hq, this]; simp
  · exact h.faultHigh
  · exact h.rootRange

/-- A member of least weight weighs at most what any member weighs. -/
theorem MinOf.weight_le {m : Memory} {S : List Nat} {a : Nat} (h : MinOf m S a) :
    a ∈ S ∧ ∀ j ∈ S, weightAt m a ≤ weightAt m j := by
  obtain ⟨h1, n, hn, hle⟩ := h
  refine ⟨h1, fun j hj => ?_⟩
  obtain ⟨k, hk, hkl⟩ := hle j hj
  rw [weightAt_of_read hn, weightAt_of_read hk]
  exact hkl

/-- The set of roots, the two extracted ones in front. -/
theorem perm_two {S : List Nat} (nd : S.Nodup) {a b : Nat} (ha : a ∈ S) (hb : b ∈ qRemove a S) :
    S.Perm (a :: b :: qRemove b (qRemove a S)) :=
  (cons_qRemove_perm nd ha).symm.trans (List.Perm.cons _ (cons_qRemove_perm (qRemove_nodup nd a) hb).symm)

/-- The weights of the two extracted trees and of the rest sum to `TOTAL`, so the merge step's sum does not wrap (R131). -/
theorem StateInv.merge_sum {s : State} (h : StateInv s) {a b : Nat} {na nb : Node} (ha : MinOf s.node s.q a)
    (hb : MinOf s.node (qRemove a s.q) b) (hna : s.node.read a = some na) (hnb : s.node.read b = some nb) :
    na.weight.toNat + nb.weight.toNat + ((qRemove b (qRemove a s.q)).map (weightAt s.node)).sum = s.total.toNat := by
  have hp := (perm_two (qWf_nodup h.queueWf) ha.1 hb.1).map (weightAt s.node)
  have := hp.sum_eq
  rw [h.v6_queue] at this
  simp only [List.map_cons, List.sum_cons, weightAt_of_read hna, weightAt_of_read hnb] at this
  omega

/-- A merge step keeps the invariant (41_reduction.md R123). -/
theorem StateInv.merged {s t : State} (h : StateInv s) (h2 : 2 ≤ s.count) {a b : Nat} {na nb : Node}
    (ha : MinOf s.node s.q a) (hb : MinOf s.node (qRemove a s.q) b)
    (hna : s.node.read a = some na) (hnb : s.node.read b = some nb)
    (hv8 : t.rv = false) (hv9 : t.phase = .busy → t.rsp = none)
    (e : t = { s with
      node := s.node.write s.nnodes (.internal a b (na.weight + nb.weight))
      q := qInsert s.nnodes (qRemove b (qRemove a s.q)), nnodes := s.nnodes + 1, count := s.count - 1,
      rv := t.rv, phase := t.phase, rsp := t.rsp, host := t.host, taken := t.taken, tie := t.tie }) : StateInv t := by
  have hms := h.merge_sum ha hb hna hnb
  have hnd := qWf_nodup h.queueWf
  have hpt := perm_two hnd ha.1 hb.1
  have hmA := ha.weight_le
  have hmB := hb.weight_le
  have hbq := (mem_qRemove ..).1 hb.1
  have hab : a ≠ b := fun e => hbq.2 e.symm
  have haq := ha.1
  have hak := h.v1_members _ haq
  have hbk := h.v1_members _ hbq.1
  have htl := s.total.isLt
  have hws : (na.weight + nb.weight).toNat = na.weight.toNat + nb.weight.toNat := by
    rw [BitVec.toNat_add, Nat.mod_eq_of_lt (by omega)]
  generalize hN : Node.internal a b (na.weight + nb.weight) = N at e
  have hread : ∀ i, (s.node.write s.nnodes N).read i = if i = s.nnodes then some N else s.node.read i :=
    fun i => read_write ..
  have hmemq' : ∀ i, i ∈ qRemove b (qRemove a s.q) ↔ i ∈ s.q ∧ i ≠ a ∧ i ≠ b := by
    intro i; simp only [mem_qRemove]; tauto
  have hq : qInsert s.nnodes (qRemove b (qRemove a s.q)) = qRemove b (qRemove a s.q) ++ [s.nnodes] :=
    qInsert_above fun j hj => h.v1_members j ((hmemq' j).1 hj).1
  have hlen : (qRemove b (qRemove a s.q)).length + 2 = s.q.length := by
    have := hpt.length_eq; simp only [List.length_cons] at this; omega
  have hint : ∀ k l r w, (s.node.write s.nnodes N).read k = some (.internal l r w) →
      (k = s.nnodes ∧ l = a ∧ r = b ∧ w = na.weight + nb.weight) ∨ (k < s.nnodes ∧ s.node.read k = some (.internal l r w)) := by
    intro k l r w hk
    rw [hread] at hk
    split at hk
    · left; rw [← hN] at hk; cases hk; exact ⟨by assumption, rfl, rfl, rfl⟩
    · exact .inr ⟨h.read_lt hk, hk⟩
  have hpar : ∀ k i, IsParent (s.node.write s.nnodes N) k i ↔ (k = s.nnodes ∧ (i = a ∨ i = b)) ∨ IsParent s.node k i := by
    intro k i
    constructor
    · rintro ⟨l, r, w, hk, hc⟩
      rcases hint _ _ _ _ hk with ⟨rfl, rfl, rfl, -⟩ | ⟨-, hk⟩
      · left; exact ⟨rfl, by tauto⟩
      · exact .inr ⟨l, r, w, hk, hc⟩
    · rintro (⟨rfl, hi⟩ | ⟨l, r, w, hk, hc⟩)
      · refine ⟨a, b, na.weight + nb.weight, ?_, by tauto⟩
        rw [hread, if_pos rfl, hN]
      · refine ⟨l, r, w, ?_, hc⟩
        rw [hread, if_neg (by have := h.read_lt hk; omega)]
        exact hk
  have hv3 := h.v3_some
  have hv2 := h.v2_nodes
  have hvc := h.v2_count
  have h31 := h.v3_nleaf
  have h32 := h.v3_nnodes
  have h33 := h.v3_count
  have hbelow' : Below (s.node.write s.nnodes N) := by
    intro k l r w hr
    rcases hint _ _ _ _ hr with ⟨rfl, rfl, rfl, -⟩ | ⟨-, hr⟩
    · exact ⟨hak, hbk⟩
    · exact h.v5 _ _ _ _ hr
  have hNr : (s.node.write s.nnodes N).read s.nnodes = some (.internal a b (na.weight + nb.weight)) := by
    rw [hread, if_pos rfl, hN]
  have hleafNew : leavesUnder (s.node.write s.nnodes N) s.nnodes = leavesUnder s.node a ++ leavesUnder s.node b := by
    rw [leavesUnder_internal hbelow' hNr, leavesUnder_write h.v5 hak, leavesUnder_write h.v5 hbk]
  have hNl : N.isLeaf = false := by rw [← hN]; rfl
  have hNw : weightAt (s.node.write s.nnodes N) s.nnodes = weightAt s.node a + weightAt s.node b := by
    rw [weightAt_of_read hNr, weightAt_of_read hna, weightAt_of_read hnb]
    exact hws
  rw [e]
  constructor
  · exact write_wf h.memWf _ _
  · exact qInsert_wf (qRemove_wf (qRemove_wf h.queueWf _) _) _
  · intro i
    dsimp only
    rw [hread]
    split
    · simp; omega
    · rw [h.stored]; omega
  · dsimp only; rw [leafIndices_write_above _ h.listed_lt, h.leaves]; simp [hNl]
  · have := h.v1_count; simp [hq]; omega
  · intro i hi
    rcases (mem_qInsert ..).1 hi with rfl | hi
    · simp
    · have := h.v1_members i ((hmemq' i).1 hi).1; dsimp only; omega
  · dsimp only; rw [internalIndices_write_above _ h.listed_lt]; simp [hNl]; omega
  · dsimp only; omega
  · dsimp only; omega
  · dsimp only; omega
  · dsimp only; omega
  · dsimp only; omega
  · intro i hi
    dsimp only at hi
    simp only [hpar, mem_qInsert, hmemq']
    by_cases hk : i = s.nnodes
    · left
      refine ⟨.inl hk, ?_⟩
      rintro k (⟨-, hc⟩ | ⟨l, r, w, hr, hc⟩)
      · omega
      · have := h.v5 _ _ _ _ hr
        have := h.read_lt hr
        omega
    · by_cases hc : i = a ∨ i = b
      · right
        refine ⟨by tauto, s.nnodes, .inl ⟨rfl, hc⟩, ?_⟩
        rintro j (⟨rfl, -⟩ | hj)
        · rfl
        · exfalso
          rcases h.v4_owned i (by omega) with hh | hh
          · exact hh.2 _ hj
          · rcases hc with rfl | rfl
            · exact hh.1 haq
            · exact hh.1 hbq.1
      · rcases h.v4_owned i (by omega) with hh | ⟨h1, k, hk1, hk2⟩
        · left
          refine ⟨.inr ⟨hh.1, by tauto⟩, ?_⟩
          rintro k (⟨-, hc'⟩ | hj)
          · exact hc hc'
          · exact hh.2 _ hj
        · right
          refine ⟨by tauto, k, .inr hk1, ?_⟩
          rintro j (⟨-, hc'⟩ | hj)
          · exact absurd hc' hc
          · exact hk2 _ hj
  · intro k l r w hr
    rcases hint _ _ _ _ hr with ⟨rfl, rfl, rfl, -⟩ | ⟨-, hr⟩
    · exact hab
    · exact h.v4_distinct _ _ _ _ hr
  · exact hbelow'
  · intro k l r w hr
    rcases hint _ _ _ _ hr with ⟨rfl, rfl, rfl, rfl⟩ | ⟨hk, hr⟩
    · dsimp only
      rw [weightAt_write_lt _ _ hak, weightAt_write_lt _ _ hbk, weightAt_of_read hna, weightAt_of_read hnb]
      exact hws
    · have := h.v5 _ _ _ _ hr
      dsimp only
      rw [weightAt_write_lt _ _ (by omega), weightAt_write_lt _ _ (by omega)]
      exact h.v6_sum _ _ _ _ hr
  · intro i hi
    dsimp only at hi ⊢
    by_cases hk : i = s.nnodes
    · subst hk
      rw [hleafNew, hNw, List.map_append, List.sum_append, map_weight_write _ (h.leavesUnder_lt hak),
        map_weight_write _ (h.leavesUnder_lt hbk), ← h.v6_under a hak, ← h.v6_under b hbk]
    · have hi : i < s.nnodes := by omega
      rw [weightAt_write_lt _ _ hi, leavesUnder_write h.v5 hi, map_weight_write _ (h.leavesUnder_lt hi)]
      exact h.v6_under i hi
  · dsimp only
    rw [hq, List.map_append, List.sum_append, map_weight_write _ fun j hj => h.v1_members j ((hmemq' j).1 hj).1]
    simp only [List.map_cons, List.map_nil, List.sum_cons, List.sum_nil, hNw, weightAt_of_read hna, weightAt_of_read hnb]
    omega
  · dsimp only
    rw [leafIndices_write_above _ h.listed_lt]
    simp only [hNl, List.append_nil, Bool.false_eq_true, if_false]
    rw [map_weight_write _ ?_, h.v6_leaves]
    intro i hi
    obtain ⟨b, w, hr⟩ := (mem_leafIndices h.memWf i).1 hi
    exact h.read_lt hr
  · intro k l r w hr
    rcases hint _ _ _ _ hr with ⟨rfl, rfl, rfl, rfl⟩ | ⟨hk, hr⟩
    · dsimp only
      rw [weightAt_write_lt _ _ hak, weightAt_write_lt _ _ hbk]
      exact hmA.2 _ hbq.1
    · have := h.v5 _ _ _ _ hr
      dsimp only
      rw [weightAt_write_lt _ _ (by omega), weightAt_write_lt _ _ (by omega)]
      exact h.v7 _ _ _ _ hr
  · simp [hv8]
  · intro hp; exact ⟨hv9 hp, by dsimp only; omega⟩
  · dsimp only
    rw [hq, List.flatMap_append, leafIndices_write_above _ h.listed_lt]
    simp only [hNl, List.append_nil, Bool.false_eq_true, if_false, List.flatMap_cons, List.flatMap_nil, hleafNew]
    have e1 : (qRemove b (qRemove a s.q)).flatMap (leavesUnder (s.node.write s.nnodes N)) =
        (qRemove b (qRemove a s.q)).flatMap (leavesUnder s.node) := by
      simp only [List.flatMap_def]
      rw [List.map_congr_left]
      intro i hi
      exact leavesUnder_write h.v5 (h.v1_members i ((hmemq' i).1 hi).1) _
    rw [e1]
    refine List.Perm.trans ?_ h.v10
    refine List.Perm.trans ?_ (hpt.flatMap_right _).symm
    simp only [List.flatMap_cons]
    rw [← List.append_assoc (leavesUnder s.node a)]
    exact List.perm_append_comm
  · dsimp only
    intro hc
    have : (qRemove b (qRemove a s.q)).length = 0 := by have := h.v1_count; omega
    rw [hq, List.length_eq_zero_iff.1 this]; simp
  · exact h.faultHigh
  · exact h.rootRange

end Sys2Proof.Machine
end

