-- ==== Sys2Proof/Laws/PerInstr.lean ====
section
/-! SUPPORT. The family `MatchMask`: the word of every command agrees with its row of the opcode table, `w AND mask = match`
(30_encoding.md R73). -/

namespace Sys2Proof.Laws.MatchMask

/-- The word of the command has the fixed bits its row of the table gives. -/
def Statement (i : Instr) : Prop := encode i &&& maskOf i = matchOf i

theorem clear : Statement .clear := by unfold Statement; decide

theorem push (byte : Byte) (weight : Weight) : Statement (.push byte weight) := by
  apply BitVec.eq_of_getLsbD_eq
  intro i hi
  interval_cases i <;> simp [encode, maskOf, matchOf]

theorem merge : Statement .merge := by unfold Statement; decide

theorem reduce : Statement .reduce := by unfold Statement; decide

theorem rdnode (idx : IdxField) : Statement (.rdnode idx) := by
  apply BitVec.eq_of_getLsbD_eq
  intro i hi
  interval_cases i <;> simp [encode, maskOf, matchOf]

theorem rdstat : Statement .rdstat := by unfold Statement; decide

end Sys2Proof.Laws.MatchMask
end

