-- ==== Sys2Proof/Machine/Assembler.lean ====
section
/-! DEFINITION. The text form of commands (30_encoding.md R80, R81): one line of characters to the commands it stands for. The
machine never sees it (log 15). -/

namespace Sys2Proof.Machine

/-- The tokens of an assembler line. A character literal is kept apart from a number: only `<byte>` may be written as one. -/
inductive Token where
  | name (letters : List Char)
  | num (n : Nat)
  | chr (code : Nat)
  | comma
  | colon
  | braceOpen
  | braceClose
deriving DecidableEq, Repr

/-- The value of a hexadecimal digit; `none` for another character. -/
def hexDigit (c : Char) : Option Nat :=
  let n := c.toNat
  if 48 ≤ n ∧ n ≤ 57 then some (n - 48)
  else if 97 ≤ n ∧ n ≤ 102 then some (n - 87)
  else if 65 ≤ n ∧ n ≤ 70 then some (n - 55)
  else none

/-- The value of a nonempty numeral in the given base, most significant digit first. -/
def numeral (base : Nat) (cs : List Char) : Option Nat :=
  match cs with
  | [] => none
  | _ => cs.foldl (fun acc c =>
      match acc, hexDigit c with
      | some n, some d => if d < base then some (n * base + d) else none
      | _, _ => none) (some 0)

/-- "unsigned numbers, decimal or `0x` hexadecimal" (R80). DESIGN CHOICE (log 15): digits only. R80 does not say whether a
number may hold the digit separator `_` that 00_scope.md R7 has in the literals of its notation; here it may not. -/
def numberOf : List Char → Option Nat
  | '0' :: 'x' :: digits => numeral 16 digits
  | digits => numeral 10 digits

/-- Letters and digits: what a mnemonic or a number is made of. DESIGN CHOICE (log 15): `_` is none of them, so a number with a
digit separator, as in `PUSH 7, 0xFFFF_FFFF`, is an assembly error; R80 is silent on it. -/
def isWordChar (c : Char) : Bool :=
  let n := c.toNat
  (48 ≤ n ∧ n ≤ 57) ∨ (65 ≤ n ∧ n ≤ 90) ∨ (97 ≤ n ∧ n ≤ 122)

/-- A decimal digit. -/
def isDigitChar (c : Char) : Bool := 48 ≤ c.toNat ∧ c.toNat ≤ 57

/-- A run of letters and digits as a token: a number where it begins with a digit, else a name. -/
def wordToken (cs : List Char) : Option Token :=
  match cs with
  | [] => none
  | c :: _ => if isDigitChar c then (numberOf cs).map .num else some (.name cs)

/-- The tokens of a line. A `#` outside a character literal starts a comment to the end of the line (R80). A character literal
is one printable character, ASCII 32 to 126, in single quotes; its value is its ASCII code. The first argument bounds the
number of tokens and spaces by the length of the line. -/
def tokens : Nat → List Char → Option (List Token)
  | _, [] => some []
  | 0, _ :: _ => none
  | fuel + 1, c :: rest =>
    if c = ' ' ∨ c = '\t' then tokens fuel rest
    else if c = '#' then some []
    else if c = ',' then (tokens fuel rest).map (.comma :: ·)
    else if c = ':' then (tokens fuel rest).map (.colon :: ·)
    else if c.toNat = 123 then (tokens fuel rest).map (.braceOpen :: ·)
    else if c.toNat = 125 then (tokens fuel rest).map (.braceClose :: ·)
    else if c = '\'' then
      match rest with
      | k :: q :: more =>
        if q = '\'' ∧ 32 ≤ k.toNat ∧ k.toNat ≤ 126 then (tokens fuel more).map (.chr k.toNat :: ·) else none
      | _ => none
    else
      match wordToken ((c :: rest).takeWhile isWordChar), tokens fuel (rest.dropWhile isWordChar) with
      | some t, some ts => some (t :: ts)
      | _, _ => none

/-- `<byte>`: a number or a character literal (R80). -/
def byteOperand : Token → Option Nat
  | .num n => some n
  | .chr n => some n
  | _ => none

/-- The entries of a PUSHTABLE up to its closing brace (R81). -/
def tableEntries : List Token → Option (List (Nat × Nat))
  | [b, .colon, .num w, .braceClose] => (byteOperand b).map fun b => [(b, w)]
  | b :: .colon :: .num w :: .comma :: more =>
    match byteOperand b, tableEntries more with
    | some b, some es => some ((b, w) :: es)
    | _, _ => none
  | _ => none

/-- The line the tokens spell; `none` where they spell no line of R80 or R81. -/
def lineOf : List Token → Option AsmLine
  | [.name ['C', 'L', 'E', 'A', 'R']] => some .clear
  | [.name ['P', 'U', 'S', 'H'], b, .comma, .num w] => (byteOperand b).map fun b => .push b w
  | [.name ['M', 'E', 'R', 'G', 'E']] => some .merge
  | [.name ['R', 'E', 'D', 'U', 'C', 'E']] => some .reduce
  | [.name ['R', 'D', 'N', 'O', 'D', 'E'], .num i] => some (.rdnode i)
  | [.name ['R', 'D', 'S', 'T', 'A', 'T']] => some .rdstat
  | .name ['P', 'U', 'S', 'H', 'T', 'A', 'B', 'L', 'E'] :: .braceOpen :: more => (tableEntries more).map .pushTable
  | _ => none

/-- The commands a line of text stands for: none for an empty line or a comment, `none` (no value) for an assembly error. -/
def assembleText (cs : List Char) : Option (List Instr) :=
  match tokens cs.length cs with
  | some [] => some []
  | some ts =>
    match lineOf ts with
    | some l => assemble l
    | none => none
  | none => none

end Sys2Proof.Machine
end

