-- ==== Sys2Proof/Tests/Slice0.lean ====
section
/-! SUPPORT. Tests of one step or one word each, their expected values taken from 95_test_vectors.md, and for every statement
with hypotheses a witness that something meets them. -/

namespace Sys2Proof.Tests

open Sys2Proof Sys2Proof.Machine

/-! ## Small states -/

/-- The next state of an outcome, if that is what it is. -/
def after : Host.Outcome State Fault Refusal → Option State
  | .next t => some t
  | _ => none

theorem after_eq {o : Host.Outcome State Fault Refusal} {t : State} (h : after o = some t) : o = .next t := by
  cases o <;> simp_all [after]

/-- The response in `RSP` after an outcome. -/
def answer (o : Host.Outcome State Fault Refusal) : Option Word := (after o).bind State.rsp

/-- Program P2: one leaf 'x' of weight 5. -/
def oneLeaf : State :=
  { State.reset with node := [(0, .leaf 0x78#8 5#32)], nnodes := 1, nleaf := 1, count := 1, q := [0], total := 5#32 }

/-- Program P1 after one push. -/
def pushedA : State :=
  { State.reset with node := [(0, .leaf 0x61#8 3#32)], nnodes := 1, nleaf := 1, count := 1, q := [0], total := 3#32 }

/-- Program P1 after two pushes. -/
def pushedB : State :=
  { pushedA with
    node := [(0, .leaf 0x61#8 3#32), (1, .leaf 0x62#8 2#32)], nnodes := 2, nleaf := 2, count := 2, q := [0, 1]
    total := 5#32 }

/-- Program P1 after three pushes: 'a' 3, 'b' 2, 'c' 1. -/
def threeLeaves : State :=
  { pushedB with
    node := [(0, .leaf 0x61#8 3#32), (1, .leaf 0x62#8 2#32), (2, .leaf 0x63#8 1#32)]
    nnodes := 3, nleaf := 3, count := 3, q := [0, 1, 2], total := 6#32 }

/-- The same after one merge step: no choice exists (95_test_vectors.md 2.3). -/
def onceMerged : State :=
  { threeLeaves with
    node := [(0, .leaf 0x61#8 3#32), (1, .leaf 0x62#8 2#32), (2, .leaf 0x63#8 1#32), (3, .internal 2 1 3#32)]
    nnodes := 4, count := 2, q := [0, 3], tie := 2 }

/-- The same after the second merge step, as under `FIFO`. -/
def twiceMerged : State :=
  { onceMerged with
    node := [(0, .leaf 0x61#8 3#32), (1, .leaf 0x62#8 2#32), (2, .leaf 0x63#8 1#32), (3, .internal 2 1 3#32),
      (4, .internal 0 3 6#32)]
    nnodes := 5, count := 1, q := [4], tie := 4 }

/-- The other outcome of the second merge step (program P1 under `ANY`). -/
def twiceMergedOther : State :=
  { twiceMerged with
    node := [(0, .leaf 0x61#8 3#32), (1, .leaf 0x62#8 2#32), (2, .leaf 0x63#8 1#32), (3, .internal 2 1 3#32),
      (4, .internal 3 0 6#32)] }

/-- Program P1's result, its response taken: `ROOT` 4, `RV` 1. -/
def result : State := { twiceMerged with root := 4, rv := true }

/-- Two leaves of equal weight 1 (95_test_vectors.md 2.3): the smallest tie. -/
def tied : State :=
  { State.reset with
    node := [(0, .leaf 1#8 1#32), (1, .leaf 2#8 1#32)], nnodes := 2, nleaf := 2, count := 2, q := [0, 1], total := 2#32 }

/-- Program P7 after its second push: leaves of weights 5 and 7. -/
def fiveSeven : State :=
  { State.reset with
    node := [(0, .leaf 1#8 5#32), (1, .leaf 2#8 7#32)], nnodes := 2, nleaf := 2, count := 2, q := [0, 1], total := 12#32 }

/-- `TOTAL` at its largest (95_test_vectors.md 2.2, after the second push). -/
def heavy : State :=
  { State.reset with
    node := [(0, .leaf 0#8 0#32), (1, .leaf 255#8 0xFFFFFFFF#32)], nnodes := 2, nleaf := 2, count := 2, q := [0, 1]
    total := 0xFFFFFFFF#32 }

/-- Only the counter at its limit: it shows the order of the two checks of PUSH (60_exceptions.md R173). -/
def full : State := { State.reset with nleaf := 256, total := 1#32 }

/-! ## Decoding and encoding (30_encoding.md R72 to R79; words of 95_test_vectors.md 2.1) -/

theorem test_decode_clear : decode 0x1000000000000000#64 = .ok .clear := by decide
theorem test_decode_push : decode 0x2000006100000003#64 = .ok (.push 0x61#8 3#32) := by decide
theorem test_decode_push_largest : decode 0x200000FFFFFFFFFF#64 = .ok (.push 255#8 0xFFFFFFFF#32) := by decide
theorem test_decode_merge : decode 0x3000000000000000#64 = .ok .merge := by decide
theorem test_decode_reduce : decode 0x4000000000000000#64 = .ok .reduce := by decide
theorem test_decode_rdnode : decode 0x500001FE00000000#64 = .ok (.rdnode 510#12) := by decide
theorem test_decode_rdnode_largest : decode 0x50000FFF00000000#64 = .ok (.rdnode 4095#12) := by decide
theorem test_decode_rdstat : decode 0x6000000000000000#64 = .ok .rdstat := by decide

theorem test_decode_illegal_opcode :
    decode 0x0000000000000000#64 = .error (.badOpcode 0#4) ∧ decode 0x7000000000000000#64 = .error (.badOpcode 7#4) ∧
      decode 0xFFFFFFFFFFFFFFFF#64 = .error (.badOpcode 15#4) := by decide

theorem test_decode_illegal_mbz :
    decode 0x1000000000000001#64 = .error (.mbzSet 1#4) ∧ decode 0x2000010100000001#64 = .error (.mbzSet 2#4) ∧
      decode 0x2800000000000000#64 = .error (.mbzSet 2#4) ∧ decode 0x5000000000000001#64 = .error (.mbzSet 5#4) ∧
      decode 0x5000100000000000#64 = .error (.mbzSet 5#4) ∧ decode 0x4000000100000000#64 = .error (.mbzSet 4#4) := by decide

theorem test_encode :
    encode (.push 0x61#8 3#32) = 0x2000006100000003#64 ∧ encode (.rdnode 4095#12) = 0x50000FFF00000000#64 ∧
      encode .rdstat = 0x6000000000000000#64 := by decide

theorem test_decodeTableWord :
    decodeTableWord 64 0x2000006100000003 = some (.push 0x61#8 3#32) ∧ decodeTableWord 64 0x7000000000000000 = none := by decide

/-- The response words of 95_test_vectors.md 2.1. -/
theorem test_responses :
    rxWord 4 (.internal 0 3 6#32) = 0x0100000400000006#64 ∧ rnWord (.leaf 0x61#8 3#32) = 0x0000006100000003#64 ∧
      rnWord (.internal 2 1 3#32) = 0x0100200100000003#64 ∧ rnWord (.internal 508 509 0#32) = 0x011FC1FD00000000#64 ∧
      reWord .illegalCommand = 0x6000000000000000#64 := by decide

theorem test_status_word :
    rsWord { State.reset with fault := 0x14#8, rv := true, root := 510, nnodes := 511, nleaf := 256, count := 1 } =
      0x01411FE1FF100001#64 := by decide

/-! ## Well-formedness (30_encoding.md R80): one ill-formed line for each check -/

theorem test_wf_byte : (AsmLine.push 255 0).wellFormed = true ∧ (AsmLine.push 256 0).wellFormed = false := by decide
theorem test_wf_weight :
    (AsmLine.push 0 4294967295).wellFormed = true ∧ (AsmLine.push 0 4294967296).wellFormed = false := by decide
theorem test_wf_idx : (AsmLine.rdnode 4095).wellFormed = true ∧ (AsmLine.rdnode 4096).wellFormed = false := by decide
theorem test_wf_table_byte : (AsmLine.pushTable [(0, 0), (256, 0)]).wellFormed = false := by decide
theorem test_wf_table_weight : (AsmLine.pushTable [(0, 4294967296)]).wellFormed = false := by decide
theorem test_asm_error : assemble (.push 256 0) = none ∧ assemble (.rdnode 4096) = none := by decide

/-- `PUSH 'a', 3 # c` is PUSH of byte 0x61 with weight 3 (R80). -/
theorem test_text_push :
    assembleText ['P', 'U', 'S', 'H', ' ', '\'', 'a', '\'', ',', ' ', '3', ' ', '#', ' ', 'c'] =
      some [.push 0x61#8 3#32] := by decide

/-- `RDNODE 0x1FE` reads node 510 (R80). -/
theorem test_text_rdnode :
    assembleText ['R', 'D', 'N', 'O', 'D', 'E', ' ', '0', 'x', '1', 'F', 'E'] = some [.rdnode 510#12] := by decide

/-- A PUSHTABLE is one PUSH per entry, in order (R81). The braces are written by their codes. -/
theorem test_text_pushtable :
    assembleText (['P', 'U', 'S', 'H', 'T', 'A', 'B', 'L', 'E', Char.ofNat 123, '0', 'x', '6', '1', ':', '3', ','] ++
      ['\'', 'b', '\'', ':', '2', Char.ofNat 125]) = some [.push 0x61#8 3#32, .push 0x62#8 2#32] := by decide

theorem test_text_error : assembleText ['N', 'O', 'P'] = none ∧ assembleText ['R', 'D', 'N', 'O', 'D', 'E'] = none := by decide

/-! ## One step of each command -/

/-- CLEAR answers 0 and clears `FAULT` (95_test_vectors.md 2.2 row 7). -/
theorem test_clear : after (exec .clear { threeLeaves with fault := 0x08#8 }) =
    some { State.reset with rsp := some 0#64 } := by decide

/-- CLEAR lowers `RV` and `ROOT` (R100). -/
theorem test_clear_result : after (exec .clear result) = some { State.reset with rsp := some 0#64, tie := 4 } := by decide

/-- P1 row 4: PUSH 'c', 1 as the third leaf. -/
theorem test_push : after (exec (.push 0x63#8 1#32) pushedB) = some { threeLeaves with rsp := some 0x0000000200000001#64 } := by
  decide

/-- R173: Full before WeightOverflow (95_test_vectors.md 2.2, capacity). -/
theorem test_push_full : answer (exec (.push 0#8 0xFFFFFFFF#32) full) = some 0x3000000000000000#64 := by decide

/-- 2.2 row 3: the sum is taken in the integers. -/
theorem test_push_overflow : after (exec (.push 7#8 1#32) heavy) =
    some { heavy with fault := 0x08#8, rsp := some 0x4000000000000000#64 } := by decide

/-- P4 row 10: MERGE on one tree is TooFew. -/
theorem test_merge_tooFew : answer (exec .merge oneLeaf) = some 0x2000000000000000#64 := by decide

/-- MERGE of the three leaves: node 3 is I(2, 1, 3), the lightest on the left (2.3). -/
theorem test_merge : after (exec .merge threeLeaves) = some { onceMerged with rsp := some 0x0100000300000003#64 } := by decide

/-- P3 row 1: REDUCE of the empty forest. -/
theorem test_reduce_empty : after (exec .reduce State.reset) =
    some { State.reset with fault := 0x01#8, rsp := some 0x1000000000000000#64 } := by decide

/-- 2.6: REDUCE makes the block BUSY, with no response yet. -/
theorem test_reduce_busy : after (exec .reduce threeLeaves) = some { threeLeaves with phase := .busy } := by decide

/-- A `Work` step of that REDUCE merges (2.3). -/
theorem test_work_merges : after (work { threeLeaves with phase := .busy }) = some { onceMerged with phase := .busy } := by decide

/-- P2 row 3: the finishing step on one leaf, TAG 0. -/
theorem test_work_finishes : after (work { oneLeaf with phase := .busy }) =
    some { oneLeaf with root := 0, rv := true, rsp := some 0x0000000000000005#64 } := by decide

/-- P1 row 7: RDNODE 3 is I(2, 1, 3). -/
theorem test_rdnode : answer (exec (.rdnode 3#12) result) = some 0x0100200100000003#64 := by decide

/-- P1 row 9 and 2.4: RDNODE 5, and RDNODE 512 is not aliased to 0. -/
theorem test_rdnode_bad :
    answer (exec (.rdnode 5#12) result) = some 0x5000000000000000#64 ∧
      answer (exec (.rdnode 512#12) result) = some 0x5000000000000000#64 := by decide

/-- P1 row 10: the status word of the end state. -/
theorem test_rdstat : answer (exec .rdstat { result with fault := 0x10#8 }) = some 0x0101004005003001#64 := by decide

/-- RDSTAT does not clear `FAULT` (R151; P5 rows 7 and 14). -/
theorem test_rdstat_keeps_fault : (after (exec .rdstat { result with fault := 0x38#8 })).map State.fault = some 0x38#8 := by
  decide

/-- P5 row 10: the illegal word that looks like CLEAR clears nothing. -/
theorem test_illegal_word : after (step { threeLeaves with host := [.issue 0x1000000000000001#64] }) =
    some { threeLeaves with fault := 0x20#8, rsp := some 0x6000000000000000#64 } := by decide

/-- 2.3: under `FIFO` the tied pair merges as I(0, 1, 2); under `ANY` either way. -/
theorem test_extract_ties :
    extractMin .fifo 7 tied.node tied.q = .ok 0 ∧ extractMin .any 0 tied.node tied.q = .ok 0 ∧
      extractMin .any 1 tied.node tied.q = .ok 1 := by
  refine ⟨rfl, rfl, rfl⟩

/-- A command placed by `withFetchWord` is the next one run. -/
theorem test_withFetchWord : after (step (State.reset.withFetchWord 64 0x2000006100000003)) =
    some { pushedA with rsp := some 0x0000000000000003#64 } := by decide

/-- P1 under `FIFO`: the codes of the result, 'a' = 0, 'c' = 10, 'b' = 11, and its weighted path length 9. -/
theorem test_codes :
    codes result.node 4 =
      [{ byte := 0x61#8, weight := 3#32, code := [false] }, { byte := 0x63#8, weight := 1#32, code := [true, false] },
        { byte := 0x62#8, weight := 2#32, code := [true, true] }] ∧ weightedPathLength result.node 4 = 9 := by decide

/-- "aaabbc" counted (95_test_vectors.md X1). -/
theorem test_count : countBytes [0x61#8, 0x62#8, 0x63#8] [0x61#8, 0x61#8, 0x61#8, 0x62#8, 0x62#8, 0x63#8] =
    [(0x61#8, 3), (0x62#8, 2), (0x63#8, 1)] := by decide

/-- 93_implementation_defined.md U6: an uncounted byte is refused, not dropped; the first one is named. -/
theorem test_count_refuses : countOrReject [0x61#8, 0x62#8] [0x61#8, 0xFF#8, 0x63#8] =
    .error (.unsupportedByteValue 0xFF#8) := by decide

/-- P2: a single leaf has the empty code, which the consumer refuses; P1's result is accepted. -/
theorem test_table_refuses : tableOrReject oneLeaf.node 0 = .error .degenerateSingleSymbolTree ∧
    tableOrReject result.node 4 = .ok (codes result.node 4) := by decide

/-- `PUSH 7, 0xFF_FF` is refused: the model's choice where R80 is silent (log 15). -/
theorem test_text_underscore :
    assembleText ['P', 'U', 'S', 'H', ' ', '7', ',', ' ', '0', 'x', 'F', 'F', '_', 'F', 'F'] = none := by decide

/-! ## Witnesses: states that meet the invariant -/

theorem reset_inv : StateInv State.reset := by
  constructor <;> simp [leafIndices, internalIndices, Memory.wf]

theorem oneLeaf_inv : StateInv oneLeaf :=
  reset_inv.pushed 0x78#8 5#32 (by decide) (by decide) rfl (by rfl)

theorem pushedA_inv : StateInv pushedA :=
  reset_inv.pushed 0x61#8 3#32 (by decide) (by decide) rfl (by rfl)

theorem pushedB_inv : StateInv pushedB :=
  pushedA_inv.pushed 0x62#8 2#32 (by decide) (by decide) rfl (by rfl)

theorem threeLeaves_inv : StateInv threeLeaves :=
  pushedB_inv.pushed 0x63#8 1#32 (by decide) (by decide) rfl (by rfl)

/-- The members of least weight, computed, are those R121 allows. -/
theorem minOf_of {m : Memory} {S : List Nat} {ws : List (Nat × Weight)} {i : Nat} (h : queueWeights m S = some ws)
    (hi : i ∈ leastMembers ws) : MinOf m S i := (mem_leastMembers h i).1 hi

theorem threeLeaves_min : MinOf threeLeaves.node threeLeaves.q 2 :=
  minOf_of (ws := [(0, 3#32), (1, 2#32), (2, 1#32)]) (by decide) (by decide)

theorem threeLeaves_second : MinOf threeLeaves.node (qRemove 2 threeLeaves.q) 1 :=
  minOf_of (ws := [(0, 3#32), (1, 2#32)]) (by decide) (by decide)

theorem onceMerged_inv : StateInv onceMerged :=
  threeLeaves_inv.merged (by decide) threeLeaves_min threeLeaves_second (na := .leaf 0x63#8 1#32) (nb := .leaf 0x62#8 2#32)
    rfl rfl rfl (by decide) (by rfl)

/-- The tie of the second merge step: both trees of weight 3 are allowed, in either order. -/
theorem onceMerged_min : MinOf onceMerged.node onceMerged.q 0 ∧ MinOf onceMerged.node onceMerged.q 3 ∧
    MinOf onceMerged.node (qRemove 0 onceMerged.q) 3 ∧ MinOf onceMerged.node (qRemove 3 onceMerged.q) 0 :=
  ⟨minOf_of (ws := [(0, 3#32), (3, 3#32)]) (by decide) (by decide),
    minOf_of (ws := [(0, 3#32), (3, 3#32)]) (by decide) (by decide),
    minOf_of (ws := [(3, 3#32)]) (by decide) (by decide), minOf_of (ws := [(0, 3#32)]) (by decide) (by decide)⟩

theorem twiceMerged_inv : StateInv twiceMerged :=
  onceMerged_inv.merged (by decide) onceMerged_min.1 onceMerged_min.2.2.1 (na := .leaf 0x61#8 3#32)
    (nb := .internal 2 1 3#32) rfl rfl rfl (by decide) (by rfl)

theorem twiceMergedOther_inv : StateInv twiceMergedOther :=
  onceMerged_inv.merged (by decide) onceMerged_min.2.1 onceMerged_min.2.2.2 (na := .internal 2 1 3#32)
    (nb := .leaf 0x61#8 3#32) rfl rfl rfl (by decide) (by rfl)

/-- The result of a REDUCE meets the invariant, with `RV` = 1. -/
theorem result_inv : StateInv result ∧ result.rv = true :=
  ⟨twiceMerged_inv.of_same_tree rfl rfl rfl rfl rfl rfl (by decide) (by decide) (by decide) (by decide), rfl⟩

/-- A single leaf as the result of a REDUCE (42_readout.md R153). -/
theorem oneLeafResult_inv : StateInv { oneLeaf with rv := true } ∧ ({ oneLeaf with rv := true } : State).rv = true :=
  ⟨oneLeaf_inv.of_same_tree rfl rfl rfl rfl rfl rfl (by decide) (by decide) (by decide) (by decide), rfl⟩

/-- A BUSY state meets the invariant. -/
theorem busy_inv : StateInv { threeLeaves with phase := .busy } :=
  threeLeaves_inv.of_same_tree rfl rfl rfl rfl rfl rfl (by decide) (by decide) (by decide) (by decide)

/-- So does one in which a response waits. -/
theorem waiting_inv : StateInv { threeLeaves with rsp := some 0x0000000200000001#64 } :=
  threeLeaves_inv.of_same_tree rfl rfl rfl rfl rfl rfl (by decide) (by decide) (by decide) (by decide)

theorem tied_inv : StateInv tied :=
  StateInv.pushed (s := { State.reset with
      node := [(0, .leaf 1#8 1#32)], nnodes := 1, nleaf := 1, count := 1, q := [0], total := 1#32 })
    (reset_inv.pushed 1#8 1#32 (by decide) (by decide) rfl (by rfl)) 2#8 1#32 (by decide) (by decide) rfl (by rfl)

/-- `StateInv` does not look at the host's moves. -/
theorem host_inv {s : State} (h : StateInv s) (moves : List HostMove) : StateInv { s with host := moves } :=
  h.of_same_tree rfl rfl rfl rfl rfl rfl h.v8 h.v9 h.faultHigh h.rootRange

/-! ## Witnesses: the hypotheses of each statement are met -/

/-- ResetAndClearLeaveTheResetValues, ClearEmptiesForestStoreAndStatus, RdstatAnswersTheStatusWord: a ready state; and the field
ranges at their largest. -/
theorem witness_ready : cmdReady State.reset = true ∧ cmdReady result = true ∧
    (510 < 4096 ∧ 511 < 4096 ∧ 256 < 4096) := by decide

/-- EveryStepKeepsTheInvariant: a step of a BUSY block. -/
theorem witness_step_keeps : ∃ t, StateInv { threeLeaves with phase := .busy } ∧
    step { threeLeaves with phase := .busy } = .next t :=
  ⟨{ onceMerged with phase := .busy }, busy_inv, after_eq (by decide)⟩

/-- ReachableStatesMeetTheInvariant: a state reached by a step. -/
theorem witness_reachable : Reachable { pushedA with rsp := some 0x0000000000000003#64 } :=
  .step (.start [.issue 0x2000006100000003#64]) (after_eq (by decide))

/-- NoStepStopsTheMachine. -/
theorem witness_runs : StateInv { threeLeaves with phase := .busy } := busy_inv

/-- EveryStepIsAnAllowedStep, FaultBitsAreSticky, CountersMoveOnlyByPushMergeClearReset: a step of each kind. -/
theorem witness_steps :
    after (step State.reset) = some State.reset ∧
      after (step { State.reset with host := [.issue 0x6000000000000000#64] }) = some { State.reset with rsp := some 0#64 } ∧
      after (step { State.reset with rsp := some 0#64, host := [.take] }) = some { State.reset with taken := [0#64] } ∧
      after (step { threeLeaves with phase := .busy }) = some { onceMerged with phase := .busy } ∧
      after (step { threeLeaves with host := [.reset] }) = some State.reset := by decide

/-- ExactlyOneKindOfStepIsEnabled: a ready state, a waiting one and a BUSY one. -/
theorem witness_enabled : StateInv threeLeaves ∧ StateInv { threeLeaves with rsp := some 0x0000000200000001#64 } ∧
    StateInv { threeLeaves with phase := .busy } := ⟨threeLeaves_inv, waiting_inv, busy_inv⟩

/-- The same, second clause: two allowed `Work` steps of one state, with different results. -/
theorem witness_allowed :
    Allowed { onceMerged with phase := .busy } .work { twiceMerged with phase := .busy } ∧
      Allowed { onceMerged with phase := .busy } .work { twiceMergedOther with phase := .busy } ∧
      ¬ SameBlock { twiceMerged with phase := .busy } { twiceMergedOther with phase := .busy } :=
  ⟨⟨rfl, 0, 3, .leaf 0x61#8 3#32, .internal 2 1 3#32, onceMerged_min.1, onceMerged_min.2.2.1, rfl, rfl, by decide⟩,
    ⟨rfl, 3, 0, .internal 2 1 3#32, .leaf 0x61#8 3#32, onceMerged_min.2.1, onceMerged_min.2.2.2, rfl, rfl, by decide⟩,
    by decide⟩

/-- The same, third clause: a BUSY block and an issued MERGE with a tie at the first extraction. -/
theorem witness_choice : StateInv { onceMerged with phase := .busy } ∧ Enabled { onceMerged with phase := .busy } .work ∧
    HasChoice { onceMerged with phase := .busy } .work ∧ HasChoice tied (.issue 0x3000000000000000#64) :=
  ⟨onceMerged_inv.of_same_tree rfl rfl rfl rfl rfl rfl (by decide) (by decide) (by decide) (by decide),
    ⟨_, witness_allowed.1⟩,
    ⟨by decide, .inl ⟨0, 3, onceMerged_min.1, onceMerged_min.2.1, by decide⟩, .inl rfl⟩,
    ⟨by decide, .inl ⟨0, 1, minOf_of (ws := [(0, 1#32), (1, 1#32)]) (by decide) (by decide),
      minOf_of (ws := [(0, 1#32), (1, 1#32)]) (by decide) (by decide), by decide⟩, .inr ⟨_, rfl, by decide⟩⟩⟩

/-- The same, with a step that has no choice. -/
theorem witness_allowed_take : Allowed { State.reset with rsp := some 0#64 } .take State.reset := ⟨by decide, by decide⟩

/-- DecodeAndEncodeAgree: a well-formed command, and a word that decodes. -/
theorem witness_decode : (Instr.push 255#8 0xFFFFFFFF#32).wellFormed = true ∧
    decode 0x50000FFF00000000#64 = .ok (.rdnode 4095#12) := by decide

/-- OpcodeTableSelectsTheCommand: a word that matches a row, and one that matches none. -/
theorem witness_table : (0x200000FFFFFFFFFF#64 &&& maskOf (.push 0#8 0#32) = matchOf (.push 0#8 0#32)) ∧
    (0x2000010100000001#64 &&& maskOf (.push 0#8 0#32) ≠ matchOf (.push 0#8 0#32)) := by decide

/-- IllegalWordsAreNotExecuted: an illegal word offered to a ready block; the boundary cases of the first clause. -/
theorem witness_illegal : cmdReady { threeLeaves with host := [.issue 0x5000100000000000#64] } = true ∧
    decode 0x5000100000000000#64 = .error (.mbzSet 5#4) ∧ decode 0x0FFFFFFFFFFFFFFF#64 = .error (.badOpcode 0#4) ∧
    decode 0x7000000000000000#64 = .error (.badOpcode 7#4) ∧ decode 0x6800000000000000#64 = .error (.mbzSet 6#4) := by decide

/-- ResponseFormats, RecordWordReadsBack: the largest node index is below 4096, and so is the largest field; a word that reads
back. -/
theorem witness_formats : 4095 < 4096 ∧ readRn 0x01FFFFFF00000000#64 = some (.internal 4095 4095 0#32) ∧
    readRn 0x000000FFFFFFFFFF#64 = some (.leaf 255#8 0xFFFFFFFF#32) := by decide

/-- PushMakesALeaf: Full; overflow by one; the largest weight that fits; a zero weight on a full sum; one record free. -/
theorem witness_push :
    (cmdReady full = true ∧ full.nleaf = 256) ∧
      (cmdReady heavy = true ∧ heavy.nleaf ≠ 256 ∧ heavy.total.toNat + (1#32).toNat > 2 ^ 32 - 1) ∧
      (heavy.total.toNat + (0#32).toNat ≤ 2 ^ 32 - 1 ∧ heavy.nnodes ≤ 510) ∧
      (threeLeaves.total.toNat + (4294967289#32).toNat ≤ 2 ^ 32 - 1) := by decide

theorem witness_push_inv : StateInv threeLeaves ∧ threeLeaves.nleaf ≠ 256 := ⟨threeLeaves_inv, by decide⟩

/-- MergeDoesOneMergeStep, MergeStepJoinsTheTwoLightest: no tree, one tree, and the least number that merges, two. -/
theorem witness_merge : (cmdReady State.reset = true ∧ State.reset.count = 0) ∧ (cmdReady oneLeaf = true ∧ oneLeaf.count = 1) ∧
    (StateInv tied ∧ cmdReady tied = true ∧ tied.count = 2) :=
  ⟨by decide, by decide, tied_inv, by decide, by decide⟩

/-- MergeStepJoinsTheTwoLightest, second clause: the pair (1, 0) of the tie. -/
theorem witness_merge_pair : StateInv tied ∧ 2 ≤ tied.count ∧ MinOf tied.node tied.q 1 ∧ MinOf tied.node (qRemove 1 tied.q) 0 :=
  ⟨tied_inv, by decide, minOf_of (ws := [(0, 1#32), (1, 1#32)]) (by decide) (by decide),
    minOf_of (ws := [(0, 1#32)]) (by decide) (by decide)⟩

/-- ReduceIsAcceptedOrRaisesEmptyInput: both clauses at their boundary. -/
theorem witness_reduce : (cmdReady State.reset = true ∧ State.reset.count = 0) ∧
    (cmdReady oneLeaf = true ∧ 1 ≤ oneLeaf.count) := by decide

/-- RdnodeAnswersTheRecord: the first bad index and the last good one. -/
theorem witness_rdnode : cmdReady result = true ∧ result.nnodes ≤ (5#12).toNat ∧ (4#12).toNat < result.nnodes ∧
    result.node.read (4#12).toNat = some (.internal 0 3 6#32) := by decide

/-- ErrorsAreRaisedExactlyWhenTheirConditionHolds, ErrorsArePrecise: a command that raises, an error answered, a `Work` step. -/
theorem witness_errors : cmdReady oneLeaf = true ∧ after (exec .merge oneLeaf) = some (raise .tooFew oneLeaf) ∧
    rcOf (reWord .tooFew) ≠ 0#4 ∧ (after (work { oneLeaf with phase := .busy })).isSome = true := by decide

/-- FaultBitsAreSticky: a bit set before a step, a bit newly set by a step, bits 6 and 7 clear. -/
theorem witness_sticky :
    after (step { State.reset with fault := 0x01#8, host := [.issue 0x6000000000000000#64] }) =
        some { State.reset with fault := 0x01#8, rsp := some 0x0010000000000000#64 } ∧
      (0x01#8).getLsbD 0 = true ∧
      after (step { State.reset with host := [.issue 0x3000000000000000#64] }) = some (raise .emptyInput State.reset) ∧
      State.reset.fault.getLsbD 0 = false ∧ (raise .emptyInput State.reset).fault.getLsbD 0 = true ∧
      State.reset.fault.getLsbD 6 = false ∧ State.reset.fault.getLsbD 7 = false := by decide

/-- ExtractMinAnyYieldsSomeLeastMember, ExtractMinFifoYieldsTheLeastIndex: an extraction of each kind, a least member, and a set
of records. -/
theorem witness_extract : extractMin .any 1 tied.node tied.q = .ok 1 ∧ extractMin .fifo 1 tied.node tied.q = .ok 0 ∧
    MinOf tied.node tied.q 1 ∧ tied.q ≠ [] ∧ (∀ i ∈ tied.q, (tied.node.read i).isSome) :=
  ⟨rfl, rfl, minOf_of (ws := [(0, 1#32), (1, 1#32)]) (by decide) (by decide), by decide, by decide⟩

/-- The same, third clause: a least member without a rival. -/
theorem witness_extract_single : MinOf threeLeaves.node threeLeaves.q 2 ∧ ∀ j, MinOf threeLeaves.node threeLeaves.q j → j = 2 := by
  refine ⟨threeLeaves_min, fun j hj => ?_⟩
  have := (mem_leastMembers (m := threeLeaves.node) (S := threeLeaves.q) (ws := [(0, 3#32), (1, 2#32), (2, 1#32)])
    (by decide) j).2 hj
  revert this
  rw [show leastMembers [(0, 3#32), (1, 2#32), (2, 1#32)] = [2] from by decide]
  simp

/-- WorkMergesOrFinishes: two trees, and one. -/
theorem witness_work : (StateInv tied ∧ 2 ≤ tied.count) ∧ (StateInv oneLeaf ∧ oneLeaf.count = 1) :=
  ⟨⟨tied_inv, by decide⟩, oneLeaf_inv, by decide⟩

/-- ReduceFinishesAfterCountSteps, ReduceIsAtomicToTheHost: a ready forest of three, and of one, the host planning no reset. -/
theorem witness_finish : (StateInv threeLeaves ∧ cmdReady threeLeaves = true ∧ 1 ≤ threeLeaves.count ∧
      HostMove.reset ∉ threeLeaves.host) ∧
    (StateInv oneLeaf ∧ cmdReady oneLeaf = true ∧ 1 ≤ oneLeaf.count ∧ HostMove.reset ∉ oneLeaf.host) :=
  ⟨⟨threeLeaves_inv, by decide⟩, oneLeaf_inv, by decide⟩

/-- StepRunsTheDecodedCommand. -/
theorem witness_step_runs : cmdReady { pushedB with host := [.issue 0x2000006300000001#64] } = true ∧
    ({ pushedB with host := [.issue 0x2000006300000001#64] } : State).host = [.issue 0x2000006300000001#64] ∧
    decode 0x2000006300000001#64 = .ok (.push 0x63#8 1#32) := by decide

/-- CommandsAreHeldUntilReady, TakeEmptiesTheResponse, WaitingLeavesTheEngineItsStep, ResetStrikesInAnyState: each condition on
`PHASE` and `RSP`, which the statements combine with any move of the host. -/
theorem witness_held : cmdReady { threeLeaves with phase := .busy } = false ∧
    cmdReady { threeLeaves with rsp := some 0#64 } = false ∧
    (∀ m : HostMove, ({ threeLeaves with phase := .busy, host := [m] } : State).host = [m] ∧
      ({ threeLeaves with phase := .busy, host := [m] } : State).phase = .busy ∧
      ({ threeLeaves with phase := .busy, host := [m] } : State).rsp = none) ∧
    (∀ m : HostMove, ({ threeLeaves with rsp := some 0#64, host := [m] } : State).host = [m] ∧
      ({ threeLeaves with rsp := some 0#64, host := [m] } : State).rsp ≠ none ∧
      ({ threeLeaves with rsp := some 0#64, host := [m] } : State).phase = .idle) ∧
    (∀ m : HostMove, ({ threeLeaves with host := [m] } : State).host = [m] ∧
      ({ threeLeaves with host := [m] } : State).phase = .idle ∧ ({ threeLeaves with host := [m] } : State).rsp = none) ∧
    threeLeaves.host = [] :=
  ⟨by decide, by decide, fun _ => ⟨rfl, rfl, rfl⟩, fun _ => ⟨rfl, Option.some_ne_none _, rfl⟩, fun _ => ⟨rfl, rfl, rfl⟩, rfl⟩

/-- OnlyResetEndsAReduceEarly: a BUSY block merging, and one finishing, while the host offers a command. -/
theorem witness_only_reset :
    (({ threeLeaves with phase := .busy } : State).rsp = none ∧
      (∀ rest, ({ threeLeaves with phase := .busy, host := [.issue 0#64] } : State).host ≠ .reset :: rest) ∧
      after (step { threeLeaves with phase := .busy, host := [.issue 0#64] }) =
        some { onceMerged with phase := .busy, host := [.issue 0#64] }) ∧
    after (step { oneLeaf with phase := .busy, host := [.issue 0#64] }) =
      some { oneLeaf with rv := true, rsp := some 5#64, host := [.issue 0#64] } :=
  ⟨⟨rfl, fun _ h => by simp at h, by decide⟩, by decide⟩

/-- EveryCommandIsAnsweredOnce: a REDUCE issued to three leaves by a host that takes the answer. -/
theorem witness_answered : StateInv { threeLeaves with host := [.issue 0x4000000000000000#64, .take] } ∧
    cmdReady { threeLeaves with host := [.issue 0x4000000000000000#64, .take] } = true :=
  ⟨host_inv threeLeaves_inv _, by decide⟩

/-- EveryWordOfARunIsAnswered: two words, one of them illegal. -/
theorem witness_run : StateInv { threeLeaves with host := runMoves [0x4000000000000000#64, 0#64] ++ [.wait] } ∧
    cmdReady { threeLeaves with host := runMoves [0x4000000000000000#64, 0#64] ++ [.wait] } = true ∧
    runMoves [0x4000000000000000#64, 0#64] = [.issue 0x4000000000000000#64, .take, .issue 0#64, .take] :=
  ⟨host_inv threeLeaves_inv _, by decide, by decide⟩

/-- RecordsAreWrittenOnce: a merge step, which writes record 3 and keeps record 0. -/
theorem witness_records : StateInv { threeLeaves with phase := .busy } ∧
    after (step { threeLeaves with phase := .busy }) = some { onceMerged with phase := .busy } ∧
    threeLeaves.node.read 0 = some (.leaf 0x61#8 3#32) ∧ onceMerged.node.read 3 = some (.internal 2 1 3#32) :=
  ⟨busy_inv, by decide, by decide, by decide⟩

/-- RootAndRvAreWrittenAsStated and the frames: a next state for each command, from a ready block and from one that holds it,
and for both kinds of `Work` step. -/
theorem witness_frames :
    (after (exec .clear result)).isSome = true ∧ (after (exec (.push 1#8 1#32) result)).isSome = true ∧
      (after (exec .merge threeLeaves)).isSome = true ∧ (after (exec .reduce result)).isSome = true ∧
      (after (exec (.rdnode 4#12) result)).isSome = true ∧ (4#12).toNat < result.nnodes ∧
      (after (exec .rdstat result)).isSome = true ∧
      after (exec (.push 1#8 1#32) { result with phase := .busy }) = some { result with phase := .busy } ∧
      (after (work threeLeaves)).isSome = true ∧ 1 < threeLeaves.count ∧
      (after (work oneLeaf)).isSome = true ∧ oneLeaf.count ≤ 1 ∧
      3 ≠ allocIndex result ∧ 5 = allocIndex result := by decide

/-- ResultIsOneTreeOverAllLeaves, CodesFormAPrefixCode, WeightedPathLengthIsTheSumOfInternalWeights: a result of three leaves and
a result of one; a leaf and an internal record below `NNODES`. -/
theorem witness_trees : (StateInv result ∧ result.rv = true) ∧ StateInv { oneLeaf with rv := true } ∧
    4 < result.nnodes ∧ result.node.read 4 = some (.internal 0 3 6#32) ∧
    result.node.read 0 = some (.leaf 0x61#8 3#32) :=
  ⟨result_inv, oneLeafResult_inv.1, by decide, by decide, by decide⟩

/-- TiesChangeOnlyTheShape: two different outcomes of one tie, the same up to ties; a forest with two trees; two different merge
steps of it; RDNODE of a leaf. -/
theorem witness_ties : StateInv twiceMerged ∧ StateInv twiceMergedOther ∧ SameUpToTies twiceMerged twiceMergedOther ∧
    1 ≤ twiceMerged.count ∧ twiceMerged ≠ twiceMergedOther ∧
    mergeStepWith .any 0 0 onceMerged = .ok twiceMerged ∧ mergeStepWith .any 1 0 onceMerged = .ok twiceMergedOther ∧
    SameUpToTies onceMerged onceMerged ∧ twiceMerged.node.read 0 = some (.leaf 0x61#8 3#32) := by
  refine ⟨twiceMerged_inv, twiceMergedOther_inv, ?_, by decide, by decide, rfl, rfl, ?_, by decide⟩
  · constructor <;> rfl
  · constructor <;> rfl

/-- BytesAreNeverInspected: two states that differ in a leaf's byte alone. -/
theorem witness_bytes : blankBytes pushedA = blankBytes { pushedA with node := [(0, .leaf 0xFF#8 3#32)] } ∧
    pushedA ≠ { pushedA with node := [(0, .leaf 0xFF#8 3#32)] } ∧ (∀ k, Instr.merge ≠ .rdnode k) :=
  ⟨by decide, by decide, fun _ h => by cases h⟩

/-- FrequencyTableCountsTheInput: a range without repeats. -/
theorem witness_range : ([0x61#8, 0x62#8] : List Byte).Nodup := by decide

/-- HostStagesRefuseWhatTheyCannotServe: an accepted input, a refused one, a leaf and an internal record in use. -/
theorem witness_refuse : ([0x61#8, 0x62#8] : List Byte).Nodup ∧ (∀ b ∈ [0x62#8, 0x62#8], b ∈ [0x61#8, 0x62#8]) ∧
    countOrReject [0x61#8, 0x62#8] [0x62#8, 0x62#8] = .ok [(0x61#8, 0), (0x62#8, 2)] ∧ StateInv result ∧
    0 < result.nnodes ∧ 4 < result.nnodes ∧ result.node.read 0 = some (.leaf 0x61#8 3#32) ∧
    result.node.read 4 = some (.internal 0 3 6#32) :=
  ⟨by decide, by decide, by decide, result_inv.1, by decide, by decide, by decide, by decide⟩

/-- PushTableIsOnePushPerEntry: entries at the limits of the fields, one just outside each, a table. -/
theorem witness_pushtable :
    (∀ e ∈ [(255, 2 ^ 32 - 1), (0, 0)], e.1 ≤ 255 ∧ e.2 ≤ 2 ^ 32 - 1) ∧
      ((256, 0) : Nat × Nat) ∈ [(256, 0)] ∧ ((0, 2 ^ 32) : Nat × Nat).2 > 2 ^ 32 - 1 ∧
      (∀ e ∈ ([(0x61#8, 2 ^ 32 - 1)] : FrequencyTable), e.2 ≤ 2 ^ 32 - 1) := by decide

end Sys2Proof.Tests
end

section
/-! The host's software around the block (00_scope.md R9, R12, R13): the codes under a node, the frequency table, and what the
two stages refuse. -/

namespace Sys2Proof.Machine

/-! ## Trees -/

/-- Induction over the tree under a node in use: every record in use is a Leaf, or an Internal record whose two children are
in use and older (10_state.md R34 V5). -/
theorem StateInv.tree_induction {s : State} (h : StateInv s) {P : Nat → Prop}
    (leaf : ∀ i b w, s.node.read i = some (.leaf b w) → P i)
    (internal : ∀ i l r w, s.node.read i = some (.internal l r w) → P l → P r → P i) :
    ∀ i < s.nnodes, P i := by
  intro i
  induction i using Nat.strong_induction_on with
  | _ i ih =>
    intro hi
    obtain ⟨n, hn⟩ := Option.isSome_iff_exists.1 ((h.stored i).2 hi)
    cases n with
    | leaf b w => exact leaf i b w hn
    | internal l r w =>
      obtain ⟨hl, hr⟩ := h.v5 i l r w hn
      exact internal i l r w hn (ih l hl (by omega)) (ih r hr (by omega))

/-! ## Codes -/

/-- Neither of two entries' codes begins with the other's. -/
def CodeEntry.Apart (d e : CodeEntry) : Prop := ¬ d.code <+: e.code ∧ ¬ e.code <+: d.code

/-- A bit put before both codes changes nothing. -/
@[simp] theorem CodeEntry.apart_cons_same (x : Bool) (d e : CodeEntry) :
    Apart { d with code := x :: d.code } { e with code := x :: e.code } ↔ Apart d e := by
  simp [Apart, List.cons_prefix_cons]

/-- Codes that begin with different bits are apart. -/
theorem CodeEntry.apart_cons_ne {x y : Bool} (h : x ≠ y) (d e : CodeEntry) :
    Apart { d with code := x :: d.code } { e with code := y :: e.code } := by
  simp [Apart, List.cons_prefix_cons, h, h.symm]

/-- R12: one code per leaf under a node, in the order of the leaves, with the leaf's byte and weight. -/
theorem StateInv.codes_match_leaves {s : State} (h : StateInv s) : ∀ i < s.nnodes,
    ((codes s.node i).map fun e => some (Node.leaf e.byte e.weight)) = (leavesUnder s.node i).map s.node.read := by
  refine h.tree_induction (fun i b w hr => ?_) (fun i l r w hr ihl ihr => ?_)
  · simp [codes_leaf hr, leavesUnder_leaf hr, hr]
  · rw [codes_internal h.v5 hr, leavesUnder_internal h.v5 hr, List.map_append, List.map_append, ← ihl, ← ihr,
      List.map_map, List.map_map]
    rfl

/-- R14 T2: the codes on the left differ from those on the right in their first bit, and within a side by induction. -/
theorem StateInv.codes_apart {s : State} (h : StateInv s) : ∀ i < s.nnodes,
    (codes s.node i).Pairwise CodeEntry.Apart := by
  refine h.tree_induction (fun i b w hr => ?_) (fun i l r w hr ihl ihr => ?_)
  · simp [codes_leaf hr]
  · rw [codes_internal h.v5 hr, List.pairwise_append]
    refine ⟨List.pairwise_map.2 (by simpa using ihl), List.pairwise_map.2 (by simpa using ihr), fun d hd e he => ?_⟩
    obtain ⟨d, -, rfl⟩ := List.mem_map.1 hd
    obtain ⟨e, -, rfl⟩ := List.mem_map.1 he
    exact CodeEntry.apart_cons_ne Bool.false_ne_true d e

/-- R14 T3: under an Internal node every code has its first bit. -/
theorem code_length_pos_of_internal {m : Memory} (hb : Below m) {i l r : Nat} {w : Weight}
    (hr : m.read i = some (.internal l r w)) : ∀ e ∈ codes m i, 1 ≤ e.code.length := by
  intro e he
  rw [codes_internal hb hr, List.mem_append, List.mem_map, List.mem_map] at he
  obtain ⟨d, -, rfl⟩ | ⟨d, -, rfl⟩ := he <;> simp

/-- Settles O45: each part by induction over the tree under the node. -/
theorem codesFormAPrefixCode : Obligations.CodesFormAPrefixCode := by
  unfold Obligations.CodesFormAPrefixCode
  intro s i h hi
  exact ⟨h.codes_match_leaves i hi, h.codes_apart i hi, fun _ _ _ hr => code_length_pos_of_internal h.v5 hr,
    fun _ _ hr => codes_leaf hr⟩

/-! ## The frequency table -/

/-- Counting one byte in a table that is a function of its bytes. -/
theorem bumpCount_map (x : Byte) (range : List Byte) (f : Byte → Nat) :
    bumpCount x (range.map fun b => (b, f b)) = range.map fun b => (b, f b + if x == b then 1 else 0) := by
  simp only [bumpCount, List.map_map]
  refine List.map_congr_left fun b _ => ?_
  by_cases hb : b = x
  · simp [hb]
  · simp [hb, Ne.symm hb]

/-- Scanning the input adds to each entry the number of times its byte occurs. -/
theorem foldl_bumpCount_map (range input : List Byte) (f : Byte → Nat) :
    input.foldl (fun t b => bumpCount b t) (range.map fun b => (b, f b)) =
      range.map fun b => (b, f b + input.count b) := by
  induction input generalizing f with
  | nil => simp
  | cons x xs ih =>
    rw [List.foldl_cons, bumpCount_map, ih]
    refine List.map_congr_left fun b _ => ?_
    rw [List.count_cons, Nat.add_assoc, Nat.add_comm (List.count b xs)]

/-- R9: the table has each byte of the range with its count in the input. -/
theorem countBytes_eq (range input : List Byte) : countBytes range input = range.map fun b => (b, input.count b) := by
  simpa [countBytes, zeroTable] using foldl_bumpCount_map range input fun _ => 0

/-- The counts of the table sum to the number of input bytes in the range, when the range has no repeats. -/
theorem sum_countBytes {range : List Byte} (nd : range.Nodup) (input : List Byte) :
    ((countBytes range input).map Prod.snd).sum = (input.filter fun b => b ∈ range).length := by
  set kept := input.filter fun b => b ∈ range with hkept
  have hcount : ∀ b ∈ range, input.count b = kept.count b := fun b hb => (List.count_filter (by simpa using hb)).symm
  calc ((countBytes range input).map Prod.snd).sum
      = (range.map fun b => input.count b).sum := by rw [countBytes_eq, List.map_map]; rfl
    _ = (range.map fun b => kept.count b).sum := by rw [List.map_congr_left hcount]
    _ = ∑ b ∈ range.toFinset, kept.count b := (List.sum_toFinset _ nd).symm
    _ = kept.length := by
      simpa using Multiset.sum_count_eq_card (s := range.toFinset) (m := (kept : Multiset Byte)) (by simp [hkept])

/-- Settles O49: the scan adds up the occurrences of each byte, and the counts of the bytes kept add up to their number. -/
theorem frequencyTableCountsTheInput : Obligations.FrequencyTableCountsTheInput := by
  unfold Obligations.FrequencyTableCountsTheInput
  intro range input nd
  exact ⟨countBytes_eq range input, sum_countBytes nd input⟩

/-! ## What the host's stages refuse -/

/-- An input within the range is counted. -/
theorem countOrReject_of_within {range input : List Byte} (h : ∀ b ∈ input, b ∈ range) :
    countOrReject range input = .ok (countBytes range input) := by
  have hnone : (input.find? fun b => b ∉ range) = none := List.find?_eq_none.2 (by simpa using h)
  rw [countOrReject, hnone]

/-- R13: the byte named is the first one outside the range. -/
theorem countOrReject_error_iff (range input : List Byte) (b : Byte) :
    countOrReject range input = .error (.unsupportedByteValue b) ↔
      ∃ before rest, input = before ++ b :: rest ∧ b ∉ range ∧ ∀ c ∈ before, c ∈ range := by
  have hfind : countOrReject range input = .error (.unsupportedByteValue b) ↔
      (input.find? fun b => b ∉ range) = some b := by
    unfold countOrReject
    cases input.find? fun b => b ∉ range <;> simp
  rw [hfind, List.find?_eq_some_iff_append]
  simp only [decide_eq_true_eq, Bool.not_eq_true', decide_eq_false_iff_not, not_not]
  constructor
  · rintro ⟨hb, before, rest, hin, hbefore⟩
    exact ⟨before, rest, hin, hb, hbefore⟩
  · rintro ⟨before, rest, hin, hb, hbefore⟩
    exact ⟨hb, before, rest, hin, hbefore⟩

/-- What stage 1 accepts lies within the range, and it is the table of R9. -/
theorem countOrReject_ok {range input : List Byte} {t : FrequencyTable} (h : countOrReject range input = .ok t) :
    (∀ b ∈ input, b ∈ range) ∧ t = countBytes range input := by
  unfold countOrReject at h
  split at h
  · cases h
  · next hnone => exact ⟨by simpa using hnone, (Except.ok.inj h).symm⟩

/-- R14 T1: the counts of an accepted input sum to its length. -/
theorem sum_of_countOrReject_ok {range input : List Byte} {t : FrequencyTable} (nd : range.Nodup)
    (h : countOrReject range input = .ok t) : (t.map Prod.snd).sum = input.length := by
  obtain ⟨hin, rfl⟩ := countOrReject_ok h
  rw [sum_countBytes nd, List.filter_eq_self.2 (by simpa using hin)]

/-- The one code of a Leaf is empty, so its table is refused. -/
theorem tableOrReject_leaf {m : Memory} {i : Nat} {b : Byte} {w : Weight} (h : m.read i = some (.leaf b w)) :
    tableOrReject m i = .error .degenerateSingleSymbolTree := by
  simp [tableOrReject, codes_leaf h]

/-- No code under an Internal node is empty, so its table is served. -/
theorem tableOrReject_internal {m : Memory} (hb : Below m) {i l r : Nat} {w : Weight}
    (h : m.read i = some (.internal l r w)) : tableOrReject m i = .ok (codes m i) := by
  refine if_neg fun hany => ?_
  obtain ⟨e, he, hempty⟩ := List.any_eq_true.1 hany
  have hpos := code_length_pos_of_internal hb h e he
  rw [of_decide_eq_true hempty] at hpos
  exact absurd hpos (by decide)

/-- A node in use is refused exactly when it is a Leaf. -/
theorem StateInv.tableOrReject_error_iff {s : State} (h : StateInv s) {i : Nat} (hi : i < s.nnodes) :
    tableOrReject s.node i = .error .degenerateSingleSymbolTree ↔ ∃ b w, s.node.read i = some (.leaf b w) := by
  refine ⟨fun herr => ?_, fun ⟨_, _, hr⟩ => tableOrReject_leaf hr⟩
  obtain ⟨n, hn⟩ := Option.isSome_iff_exists.1 ((h.stored i).2 hi)
  cases n with
  | leaf b w => exact ⟨b, w, hn⟩
  | internal l r w => cases (tableOrReject_internal h.v5 hn).symm.trans herr

/-- R76: bits [59:56] of an RX word are the record's TAG. -/
theorem rxWord_tag (i : Nat) (n : Node) : ((rxWord i n).extractLsb 59 56).toNat = n.tag.toNat := by
  rw [BitVec.extractLsb_toNat, rxWord_toNat, Nat.shiftRight_eq_div_pow]
  have := n.weight.isLt; have := (zext12 i).isLt; have := n.tag.isLt
  omega

/-- The TAG is 0 for a Leaf and for nothing else (R21). -/
theorem Node.tag_eq_zero_iff (n : Node) : n.tag.toNat = 0 ↔ ∃ b w, n = .leaf b w := by
  cases n <;> simp [Node.tag]

/-- Settles O51: stage 1 by the first byte its search finds, the consumer by the lengths of the codes. -/
theorem hostStagesRefuseWhatTheyCannotServe : Obligations.HostStagesRefuseWhatTheyCannotServe := by
  unfold Obligations.HostStagesRefuseWhatTheyCannotServe
  refine ⟨fun _ _ h => countOrReject_of_within h, countOrReject_error_iff, fun _ _ _ nd h => sum_of_countOrReject_ok nd h,
    fun s i h hi => ⟨h.tableOrReject_error_iff hi, fun l r w hr => tableOrReject_internal h.v5 hr⟩, fun i n => ?_⟩
  rw [rxWord_tag, Node.tag_eq_zero_iff]

end Sys2Proof.Machine
end

section
/-! The state over the steps: reset and CLEAR, the invariant of 10_state.md R34 kept by every step, and who moves `FAULT`, the
counters, `ROOT` and `RV` (R23 to R29). -/

namespace Sys2Proof.Machine

/-! ## What one step can do, by kind -/

/-- What a command does to a block that is ready for it. -/
inductive ExecCase (s : State) : Instr → State → Prop where
  /-- an error, which CLEAR and RDSTAT never raise (60_exceptions.md R170, R171) -/
  | raised {i : Instr} (hi : i ≠ .clear ∧ i ≠ .rdstat) (e : Error) : ExecCase s i (raise e s)
  /-- CLEAR (40_forest_load.md R100) -/
  | cleared : ExecCase s .clear (respond (rsWord (clearAll s)) (clearAll s))
  /-- PUSH makes a leaf (R101) -/
  | pushed (b : Byte) (x : Weight) (hleaf : s.nleaf ≠ 256) (hfit : s.total.toNat + x.toNat ≤ 4294967295) :
    ExecCase s (.push b x) (pushedState b x s)
  /-- MERGE does one merge step (41_reduction.md R124) -/
  | merged (u : State) (n : Node) (hcount : 2 ≤ s.count) (hmerge : mergeStep s = .ok u)
    (hn : u.node.read s.nnodes = some n) : ExecCase s .merge (respond (rxWord s.nnodes n) { u with rv := false })
  /-- REDUCE is accepted (R125) -/
  | accepted (hcount : 1 ≤ s.count) : ExecCase s .reduce { s with phase := .busy }
  /-- RDNODE answers the record (42_readout.md R150) -/
  | recordRead (k : IdxField) (n : Node) (hn : s.node.read k.toNat = some n) :
    ExecCase s (.rdnode k) (respond (rnWord n) s)
  /-- RDSTAT answers the status word (R151) -/
  | statusRead : ExecCase s .rdstat (respond (rsWord s) s)

/-- A command is held by a block that is not ready for it, or runs (70_reset_and_hazards.md R204). -/
theorem exec_next {i : Instr} {s t : State} (h : exec i s = .next t) :
    (cmdReady s = false ∧ t = s) ∨ (cmdReady s = true ∧ ExecCase s i t) := by
  cases i with
  | clear => exact (execClear_next.1 h).imp_right fun ⟨hr, e⟩ => ⟨hr, e ▸ .cleared⟩
  | push b x =>
    rcases execPush_next.1 h with held | ⟨hr, -, rfl⟩ | ⟨hr, -, -, rfl⟩ | ⟨hr, hleaf, hfit, -, rfl⟩
    · exact .inl held
    · exact .inr ⟨hr, .raised (by simp) _⟩
    · exact .inr ⟨hr, .raised (by simp) _⟩
    · exact .inr ⟨hr, .pushed b x hleaf hfit⟩
  | merge =>
    rcases execMerge_next.1 h with held | ⟨hr, -, rfl⟩ | ⟨hr, -, rfl⟩ | ⟨hr, hcount, u, n, hmerge, hn, rfl⟩
    · exact .inl held
    · exact .inr ⟨hr, .raised (by simp) _⟩
    · exact .inr ⟨hr, .raised (by simp) _⟩
    · exact .inr ⟨hr, .merged u n hcount hmerge hn⟩
  | reduce =>
    rcases execReduce_next.1 h with held | ⟨hr, -, rfl⟩ | ⟨hr, hcount, rfl⟩
    · exact .inl held
    · exact .inr ⟨hr, .raised (by simp) _⟩
    · exact .inr ⟨hr, .accepted hcount⟩
  | rdnode k =>
    rcases execRdnode_next.1 h with held | ⟨hr, -, rfl⟩ | ⟨hr, -, n, hn, rfl⟩
    · exact .inl held
    · exact .inr ⟨hr, .raised (by simp) _⟩
    · exact .inr ⟨hr, .recordRead k n hn⟩
  | rdstat => exact (execRdstat_next.1 h).imp_right fun ⟨hr, e⟩ => ⟨hr, e ▸ .statusRead⟩

theorem execCase_of_ready {i : Instr} {s t : State} (hr : cmdReady s = true) (h : exec i s = .next t) :
    ExecCase s i t := by
  rcases exec_next h with ⟨hn, -⟩ | ⟨-, hx⟩
  · simp [hr] at hn
  · exact hx

/-- CLEAR raises no error. -/
theorem ExecCase.eq_of_clear {s t : State} (hx : ExecCase s .clear t) : t = respond (rsWord (clearAll s)) (clearAll s) := by
  cases hx with
  | raised hi e => exact absurd rfl hi.1
  | cleared => rfl

/-- What one step does (70_reset_and_hazards.md R203), `moves` being what the host has left to do where that plays no part. -/
inductive StepCase (s t : State) : Prop where
  /-- the block stutters: the host waits, or its move is held (R204, R205) -/
  | stays (moves : List HostMove) (e : t = { s with host := moves })
  /-- the host takes the response (R205) -/
  | took (moves : List HostMove) (r : Word) (e : t = { s with rsp := none, taken := s.taken ++ [r], host := moves })
  /-- reset strikes (R200) -/
  | reset (rest : List HostMove) (hh : s.host = .reset :: rest) (e : t = resetBlock { s with host := rest })
  /-- the engine of a BUSY block works (R206) -/
  | worked (moves : List HostMove) (hp : s.phase = .busy) (hh : ∀ rest, s.host ≠ .reset :: rest)
    (hw : work { s with host := moves } = .next t)
  /-- an offered command is accepted (R204) -/
  | ran (w : Word) (rest : List HostMove) (i : Instr) (hh : s.host = .issue w :: rest) (hr : cmdReady s = true)
    (hd : decode w = .ok i) (hx : ExecCase { s with host := rest } i t)
  /-- an offered word is no command (60_exceptions.md R180) -/
  | illegal (rest : List HostMove) (hr : cmdReady s = true) (e : t = raise .illegalCommand { s with host := rest })

theorem stepCase_of_engineTurn {s t : State} {moves : List HostMove} (hh : ∀ rest, s.host ≠ .reset :: rest)
    (h : engineTurn { s with host := moves } = .next t) : StepCase s t := by
  rcases engineTurn_next.1 h with ⟨-, e⟩ | ⟨hp, hw⟩
  · exact .stays moves e
  · exact .worked moves hp hh hw

/-- Every step is of one of these kinds (R203); a move the block does not answer leaves the engine its step (R206). -/
theorem step_cases {s t : State} (h : step s = .next t) : StepCase s t := by
  rcases step_next h with ⟨hh, ht⟩ | ⟨rest, hh, e⟩ | ⟨rest, hh, ht⟩ | ⟨rest, r, hh, -, e⟩ | ⟨rest, hh, -, ht⟩ |
    ⟨w, rest, i, hh, hr, hd, hx⟩ | ⟨w, rest, -, -, hr, -, e⟩ | ⟨w, rest, hh, -, ht⟩
  · exact stepCase_of_engineTurn (by simp [hh]) ht
  · exact .reset rest hh e
  · exact stepCase_of_engineTurn (by simp [hh]) ht
  · exact .took rest r e
  · exact stepCase_of_engineTurn (by simp [hh]) ht
  · exact .ran w rest i hh hr hd (execCase_of_ready hr hx)
  · exact .illegal rest hr e
  · exact stepCase_of_engineTurn (by simp [hh]) ht

/-- A merge step of this block extracts two least members in turn (41_reduction.md R123). -/
theorem mergeStep_ok {s t : State} (h : mergeStep s = .ok t) :
    ∃ a b na nb, MinOf s.node s.q a ∧ MinOf s.node (qRemove a s.q) b ∧ s.node.read a = some na ∧
      s.node.read b = some nb ∧ t = mergedFull a b (na.weight + nb.weight) s := by
  obtain ⟨a, b, na, nb, ha, hb, hna, hnb, -, e⟩ := mergeStepWith_ok h
  exact ⟨a, b, na, nb, extractMin_sound ha, extractMin_sound hb, hna, hnb, e⟩

/-- A merge step writes the store, `Q`, `NNODES`, `COUNT` and the counter of free choices, and nothing else (R123). -/
theorem mergeStep_frame {s t : State} (h : mergeStep s = .ok t) :
    t = { s with node := t.node, q := t.q, nnodes := s.nnodes + 1, count := s.count - 1, tie := s.tie + 2 } := by
  obtain ⟨a, b, na, nb, -, -, -, -, rfl⟩ := mergeStep_ok h
  rfl

/-! ## Reset and CLEAR -/

/-- The status word of an emptied block is zero (R37). -/
@[simp] theorem rsWord_clearAll (s : State) : rsWord (clearAll s) = 0#64 :=
  BitVec.eq_of_toNat_eq (by simp [rsWord_toNat, zext12])

/-- CLEAR in a ready block leaves the reset values, its response apart (R37, R100). -/
theorem sameBlock_clearAll {s : State} (hp : s.phase = .idle) (w : Word) :
    SameBlock (respond w (clearAll s)) { State.reset with rsp := some w } := by
  simp [sameBlock_iff, hp]

/-- Settles O1: reset by its definition, CLEAR because a ready block is idle already. -/
theorem resetAndClearLeaveTheResetValues : Obligations.ResetAndClearLeaveTheResetValues := by
  unfold Obligations.ResetAndClearLeaveTheResetValues
  refine ⟨by simp, fun s hr => ?_, rfl⟩
  refine ⟨_, execClear_next.2 (.inr ⟨hr, rfl⟩), ?_⟩
  rw [rsWord_clearAll]
  exact sameBlock_clearAll ((cmdReady_iff s).1 hr).1 _

/-! ## The bits of `FAULT` -/

/-- An error sets its own bit and no other (R29, R171). -/
theorem setFault_getLsbD (e : Error) (f : BitVec 8) (j : Nat) :
    (setFault e f).getLsbD j = (f.getLsbD j || decide (j + 1 = e.code.toNat)) := by
  have hbit : e.faultBit.getLsbD j = decide (j + 1 = e.code.toNat) := by
    have hcode : 1 ≤ e.code.toNat ∧ e.code.toNat ≤ 6 := by cases e <;> decide
    rw [Error.faultBit, BitVec.getLsbD_shiftLeft, BitVec.getLsbD_one]
    grind
  rw [setFault, BitVec.getLsbD_or, hbit]

/-- No error has bit 6 or 7 (R29, R170). -/
theorem setFault_high (e : Error) {f : BitVec 8} (h : f.getLsbD 6 = false ∧ f.getLsbD 7 = false) :
    (setFault e f).getLsbD 6 = false ∧ (setFault e f).getLsbD 7 = false := by
  simp only [setFault_getLsbD, h.1, h.2, Bool.false_or]
  cases e <;> decide

/-! ## The invariant -/

/-- The invariant speaks of the block alone. -/
theorem StateInv.of_sameBlock {s t : State} (h : StateInv s) (e : SameBlock t s) : StateInv t := by
  obtain ⟨hnode, hnnodes, hnleaf, hcount, hq, htotal, hroot, hrv, hfault, hphase, hrsp⟩ := (sameBlock_iff t s).1 e
  refine h.of_same_tree hnode hnnodes hnleaf hcount hq htotal ?_ ?_ ?_ ?_
  · rw [hrv, hcount, hq, hroot]; exact h.v8
  · rw [hphase, hrsp, hcount]; exact h.v9
  · rw [hfault]; exact h.faultHigh
  · rw [hroot]; exact h.rootRange

/-- The empty forest meets every clause (R37). -/
theorem stateInv_reset : StateInv State.reset := by
  constructor <;> simp [Memory.wf, leafIndices, internalIndices]

/-- Settles O2: the host's moves are not the block's, and the empty forest meets every clause. -/
theorem resetMeetsTheInvariant : Obligations.ResetMeetsTheInvariant := by
  unfold Obligations.ResetMeetsTheInvariant
  intro moves
  exact stateInv_reset.of_sameBlock rfl

/-- A response given by an idle block. -/
theorem StateInv.responded {s : State} (h : StateInv s) (hp : s.phase = .idle) (w : Word) : StateInv (respond w s) :=
  h.of_same_tree rfl rfl rfl rfl rfl rfl h.v8 (by simp [hp]) h.faultHigh h.rootRange

/-- An error raised by an idle block (60_exceptions.md R171). -/
theorem StateInv.raised {s : State} (h : StateInv s) (hp : s.phase = .idle) (e : Error) : StateInv (raise e s) :=
  h.of_same_tree rfl rfl rfl rfl rfl rfl h.v8 (by simp [hp]) (setFault_high e h.faultHigh) h.rootRange

/-- CLEAR in an idle block: the reset values and a response. -/
theorem StateInv.cleared {s : State} (hp : s.phase = .idle) (w : Word) :
    StateInv (respond w (clearAll s)) :=
  (stateInv_reset.responded rfl w).of_sameBlock (sameBlock_clearAll hp w)

/-- More than one root is no result yet (V8). -/
theorem StateInv.rv_false {s : State} (h : StateInv s) (h2 : 2 ≤ s.count) : s.rv = false := by
  cases hrv : s.rv with
  | false => rfl
  | true => have := (h.v8 hrv).1; omega

/-- A command that a ready block runs keeps the invariant. -/
theorem ExecCase.keeps_inv {i : Instr} {s t : State} (hx : ExecCase s i t) (h : StateInv s) (hr : cmdReady s = true) :
    StateInv t := by
  obtain ⟨hp, hrsp⟩ := (cmdReady_iff s).1 hr
  cases hx with
  | raised hi e => exact h.raised hp e
  | cleared => exact .cleared hp _
  | pushed b x hleaf hfit => exact h.pushed b x hleaf hfit hp rfl
  | merged u n hcount hmerge hn =>
    obtain ⟨a, b, na, nb, ha, hb, hna, hnb, rfl⟩ := mergeStep_ok hmerge
    exact h.merged hcount ha hb hna hnb rfl (by simp [mergedFull, hp]) rfl
  | accepted hcount => exact h.of_same_tree rfl rfl rfl rfl rfl rfl h.v8 (fun _ => ⟨hrsp, hcount⟩) h.faultHigh h.rootRange
  | recordRead k n hn => exact h.responded hp _
  | statusRead => exact h.responded hp _

/-- The finish of a REDUCE keeps the invariant: the root it writes is the one member of `Q` (70_reset_and_hazards.md R206). -/
theorem StateInv.finished {s : State} (h : StateInv s) {r : Nat} (hq : s.q = [r]) (n : Node) :
    StateInv (finishedState r n s) := by
  have hcount : s.count = 1 := by simp [h.v1_count, hq]
  have hroot : r ≤ 510 := by
    have := h.v1_members r (by simp [hq])
    have := h.v3_nnodes
    omega
  exact h.of_same_tree rfl rfl rfl rfl rfl rfl (fun _ => ⟨hcount, hq⟩) (by simp) h.faultHigh hroot

/-- A `Work` step keeps the invariant. -/
theorem StateInv.worked {s t : State} (h : StateInv s) (hw : work s = .next t) : StateInv t := by
  rcases work_next.1 hw with ⟨hcount, hmerge⟩ | ⟨-, r, n, hq, -, rfl⟩
  · obtain ⟨a, b, na, nb, ha, hb, hna, hnb, rfl⟩ := mergeStep_ok hmerge
    exact h.merged hcount ha hb hna hnb (h.rv_false hcount) (fun hp => (h.v9 hp).1) rfl
  · exact h.finished hq n

/-- Every kind of step keeps the invariant. -/
theorem StateInv.stepped {s t : State} (h : StateInv s) (hs : step s = .next t) : StateInv t := by
  have hmoves : ∀ moves, StateInv { s with host := moves } := fun moves => h.of_sameBlock rfl
  cases step_cases hs with
  | stays moves e => exact e ▸ hmoves moves
  | took moves r e =>
    subst e
    exact h.of_same_tree rfl rfl rfl rfl rfl rfl h.v8 (fun hp => ⟨rfl, (h.v9 hp).2⟩) h.faultHigh h.rootRange
  | reset rest hh e => exact e ▸ stateInv_reset.of_sameBlock (resetBlock_sameBlock _)
  | worked moves hp hh hw => exact (hmoves moves).worked hw
  | ran w rest i hh hr hd hx => exact hx.keeps_inv (hmoves rest) hr
  | illegal rest hr e => exact e ▸ (hmoves rest).raised ((cmdReady_iff s).1 hr).1 _

/-- Settles O3: kind by kind of step. What writes the forest is a new leaf or a merge, which keep it by
`StateInv.pushed` and `StateInv.merged`. -/
theorem everyStepKeepsTheInvariant : Obligations.EveryStepKeepsTheInvariant := by
  unfold Obligations.EveryStepKeepsTheInvariant
  exact fun s t h hs => h.stepped hs

/-- Settles O4: induction over the run, from the state after reset (O2) and by every step (O3). -/
theorem reachableStatesMeetTheInvariant : Obligations.ReachableStatesMeetTheInvariant := by
  unfold Obligations.ReachableStatesMeetTheInvariant
  intro s hreach
  induction hreach with
  | start moves => exact resetMeetsTheInvariant moves
  | step _ hs ih => exact ih.stepped hs

/-! ## Who writes `FAULT` -/

/-- The host resets, or issues a CLEAR that the block accepts: the two moves that empty the block. -/
def Clears (s : State) : Prop :=
  (∃ rest, s.host = .reset :: rest) ∨
    ∃ w rest, s.host = .issue w :: rest ∧ decode w = .ok .clear ∧ cmdReady s = true

/-- What a command can do to `FAULT` (R29). -/
theorem ExecCase.fault {i : Instr} {s t : State} (hx : ExecCase s i t) :
    t.fault = s.fault ∨ (∃ e, t.rsp = some (reWord e) ∧ t.fault = setFault e s.fault) ∨ (i = .clear ∧ t.fault = 0x00#8) := by
  cases hx with
  | raised hi e => exact .inr (.inl ⟨e, rfl, rfl⟩)
  | cleared => exact .inr (.inr ⟨rfl, rfl⟩)
  | pushed b x hleaf hfit => exact .inl rfl
  | merged u n hcount hmerge hn => rw [mergeStep_frame hmerge]; exact .inl rfl
  | accepted hcount => exact .inl rfl
  | recordRead k n hn => exact .inl rfl
  | statusRead => exact .inl rfl

/-- A `Work` step raises no error and clears none. -/
theorem work_fault {s t : State} (hw : work s = .next t) : t.fault = s.fault := by
  rcases work_next.1 hw with ⟨-, hmerge⟩ | ⟨-, r, n, -, -, rfl⟩
  · rw [mergeStep_frame hmerge]
  · rfl

/-- All that a step can do to `FAULT` (R29). -/
theorem step_fault {s t : State} (hs : step s = .next t) :
    t.fault = s.fault ∨ (∃ e, t.rsp = some (reWord e) ∧ t.fault = setFault e s.fault) ∨ (Clears s ∧ t.fault = 0x00#8) := by
  cases step_cases hs with
  | stays moves e => subst e; exact .inl rfl
  | took moves r e => subst e; exact .inl rfl
  | reset rest hh e => subst e; exact .inr (.inr ⟨.inl ⟨rest, hh⟩, rfl⟩)
  | worked moves hp hh hw =>
    have h := work_fault hw
    exact .inl h
  | ran w rest i hh hr hd hx =>
    rcases hx.fault with h | h | ⟨rfl, h⟩
    · exact .inl h
    · exact .inr (.inl h)
    · exact .inr (.inr ⟨.inr ⟨w, rest, hh, hd, hr⟩, h⟩)
  | illegal rest hr e => subst e; exact .inr (.inl ⟨_, rfl, rfl⟩)

/-- Bits [59:52] of the status word are `FAULT` (R76). -/
theorem rsWord_fault (s : State) : ((rsWord s).extractLsb 59 52).toNat = s.fault.toNat := by
  rw [BitVec.extractLsb_toNat, rsWord_toNat, Nat.shiftRight_eq_div_pow]
  have := s.fault.isLt; have := s.rv.toNat_lt; have := (zext12 s.root).isLt; have := (zext12 s.nnodes).isLt
  have := (zext12 s.nleaf).isLt; have := (zext12 s.count).isLt
  omega

/-- Settles O22: `step_fault` bit by bit. -/
theorem faultBitsAreSticky : Obligations.FaultBitsAreSticky := by
  unfold Obligations.FaultBitsAreSticky
  refine ⟨fun e s => ?raiseSets, fun s t hr h => ?clear, fun _ => rfl, fun s t j hs hj => ?sticky,
    fun s t j hs hj ht => ?newlySet, fun s t hs h6 h7 => ?high, rsWord_fault⟩
  case raiseSets =>
    have hcode : e.code.toNat - 1 + 1 = e.code.toNat := by cases e <;> rfl
    simp [setFault_getLsbD, hcode]
  case clear => rw [(execCase_of_ready hr h).eq_of_clear]; rfl
  case sticky =>
    rcases step_fault hs with h | ⟨e, -, h⟩ | ⟨hreset | ⟨w, rest, hh, hd, hr⟩, h⟩
    · exact .inl (h ▸ hj)
    · exact .inl (by rw [h, setFault_getLsbD, hj, Bool.true_or])
    · exact .inr (.inl hreset)
    · exact .inr (.inr ⟨w, rest, hh, hd, hr, h⟩)
  case newlySet =>
    rcases step_fault hs with h | ⟨e, hrsp, h⟩ | ⟨-, h⟩
    · simp [h, hj] at ht
    · have hcode : j + 1 = e.code.toNat := by simpa [h, setFault_getLsbD, hj] using ht
      exact ⟨e, hcode, hrsp, h⟩
    · simp [h] at ht
  case high =>
    rcases step_fault hs with h | ⟨e, -, h⟩ | ⟨-, h⟩
    · exact h ▸ ⟨h6, h7⟩
    · exact h ▸ setFault_high e ⟨h6, h7⟩
    · simp [h]

/-! ## Who moves the counters -/

/-- `NNODES`, `NLEAF`, `COUNT` and `TOTAL` are as they were. -/
def CountersKept (s t : State) : Prop :=
  t.nnodes = s.nnodes ∧ t.nleaf = s.nleaf ∧ t.count = s.count ∧ t.total = s.total

/-- One node, one leaf, one tree and the weight `x` more (R101). -/
def CountersPushed (x : Weight) (s t : State) : Prop :=
  t.nnodes = s.nnodes + 1 ∧ t.nleaf = s.nleaf + 1 ∧ t.count = s.count + 1 ∧ t.total.toNat = s.total.toNat + x.toNat

/-- One node more and, of two trees or more, one less (41_reduction.md R123). -/
def CountersMerged (s t : State) : Prop :=
  2 ≤ s.count ∧ t.nnodes = s.nnodes + 1 ∧ t.nleaf = s.nleaf ∧ t.count + 1 = s.count ∧ t.total = s.total

theorem countersMerged_of_mergeStep {s t : State} (hcount : 2 ≤ s.count) (h : mergeStep s = .ok t) : CountersMerged s t := by
  rw [mergeStep_frame h]
  exact ⟨hcount, rfl, rfl, Nat.sub_add_cancel (by omega), rfl⟩

theorem countersPushed_pushedState (b : Byte) {x : Weight} {s : State} (hfit : s.total.toNat + x.toNat ≤ 4294967295) :
    CountersPushed x s (pushedState b x s) :=
  ⟨rfl, rfl, rfl, BitVec.toNat_add_of_lt (by omega)⟩

/-- A `Work` step merges, or leaves the counters to the finish, which keeps them. -/
theorem work_counters {s t : State} (hw : work s = .next t) : CountersMerged s t ∨ CountersKept s t := by
  rcases work_next.1 hw with ⟨hcount, hmerge⟩ | ⟨-, r, n, -, -, rfl⟩
  · exact .inl (countersMerged_of_mergeStep hcount hmerge)
  · exact .inr ⟨rfl, rfl, rfl, rfl⟩

/-- Settles O38: kind by kind of step. -/
theorem countersMoveOnlyByPushMergeClearReset : Obligations.CountersMoveOnlyByPushMergeClearReset := by
  unfold Obligations.CountersMoveOnlyByPushMergeClearReset
  intro s t hs
  cases step_cases hs with
  | stays moves e => subst e; exact .inl ⟨rfl, rfl, rfl, rfl⟩
  | took moves r e => subst e; exact .inl ⟨rfl, rfl, rfl, rfl⟩
  | reset rest hh e => subst e; exact .inr (.inr (.inr ⟨rfl, rfl, rfl, rfl, .inl ⟨rest, hh⟩⟩))
  | worked moves hp hh hw =>
    rcases work_counters hw with h | h
    · exact .inr (.inr (.inl ⟨.inr ⟨hp, hh⟩, h⟩))
    · exact .inl h
  | illegal rest hr e => subst e; exact .inl ⟨rfl, rfl, rfl, rfl⟩
  | ran w rest i hh hr hd hx =>
    cases hx with
    | raised hi e => exact .inl ⟨rfl, rfl, rfl, rfl⟩
    | cleared => exact .inr (.inr (.inr ⟨rfl, rfl, rfl, rfl, .inr ⟨w, rest, hh, hd, hr⟩⟩))
    | pushed b x hleaf hfit =>
      exact .inr (.inl ⟨w, b, x, rest, hh, hd, hr, countersPushed_pushedState b hfit⟩)
    | merged u n hcount hmerge hn =>
      have h := countersMerged_of_mergeStep hcount hmerge
      exact .inr (.inr (.inl ⟨.inl ⟨w, rest, hh, hd, hr⟩, h⟩))
    | accepted hcount => exact .inl ⟨rfl, rfl, rfl, rfl⟩
    | recordRead k n hn => exact .inl ⟨rfl, rfl, rfl, rfl⟩
    | statusRead => exact .inl ⟨rfl, rfl, rfl, rfl⟩

/-! ## Who writes `ROOT` and `RV` -/

/-- A `Work` step that merges keeps `ROOT` and `RV`; the finish writes them (R28, 70_reset_and_hazards.md R206). -/
theorem work_root_rv {s t : State} (hw : work s = .next t) :
    (1 < s.count ∧ t.root = s.root ∧ t.rv = s.rv) ∨ (s.q = [t.root] ∧ t.rv = true) := by
  rcases work_next.1 hw with ⟨hcount, hmerge⟩ | ⟨-, r, n, hq, -, rfl⟩
  · rw [mergeStep_frame hmerge]; exact .inl ⟨hcount, rfl, rfl⟩
  · exact .inr ⟨hq, rfl⟩

/-- A PUSH that makes a leaf and a MERGE that merges keep `ROOT` and clear `RV` (R28). -/
theorem ExecCase.root_rv_of_push_or_merge {i : Instr} {s t : State} (hx : ExecCase s i t)
    (hi : (∃ b x, i = .push b x) ∨ i = .merge) : t.root = s.root ∧ (t.rv = false ∨ ∃ e, t = raise e s) := by
  cases hx with
  | raised _ e => exact ⟨rfl, .inr ⟨e, rfl⟩⟩
  | pushed b x hleaf hfit => exact ⟨rfl, .inl rfl⟩
  | merged u n hcount hmerge hn => rw [mergeStep_frame hmerge]; exact ⟨rfl, .inl rfl⟩
  | _ => simp at hi

/-- REDUCE at its acceptance, RDNODE and RDSTAT keep `ROOT` and `RV` (R28). -/
theorem exec_root_rv_of_reduce_or_readout {i : Instr} {s t : State} (h : exec i s = .next t)
    (hi : i = .reduce ∨ (∃ k, i = .rdnode k) ∨ i = .rdstat) : t.root = s.root ∧ t.rv = s.rv := by
  rcases exec_next h with ⟨-, rfl⟩ | ⟨-, hx⟩
  · exact ⟨rfl, rfl⟩
  · cases hx with
    | raised _ e => exact ⟨rfl, rfl⟩
    | accepted hcount => exact ⟨rfl, rfl⟩
    | recordRead k n hn => exact ⟨rfl, rfl⟩
    | statusRead => exact ⟨rfl, rfl⟩
    | _ => simp at hi

/-- Settles O39: writer by writer. -/
theorem rootAndRvAreWrittenAsStated : Obligations.RootAndRvAreWrittenAsStated := by
  unfold Obligations.RootAndRvAreWrittenAsStated
  refine ⟨fun s t hw => work_root_rv hw, fun b x s t hr h => ?push, fun s t hr h => ?merge, fun s t hr h => ?clear,
    fun _ => ⟨rfl, rfl⟩, fun k s t h => ?rdnode, fun s t h => ?rdstat, fun s t h => ?reduce, fun _ _ => ⟨rfl, rfl⟩,
    fun s => ⟨takeResponse_root s, takeResponse_rv s⟩⟩
  case push => exact (execCase_of_ready hr h).root_rv_of_push_or_merge (.inl ⟨b, x, rfl⟩)
  case merge => exact (execCase_of_ready hr h).root_rv_of_push_or_merge (.inr rfl)
  case clear => rw [(execCase_of_ready hr h).eq_of_clear]; exact ⟨rfl, rfl⟩
  case rdnode => exact exec_root_rv_of_reduce_or_readout h (.inr (.inl ⟨k, rfl⟩))
  case rdstat => exact exec_root_rv_of_reduce_or_readout h (.inr (.inr rfl))
  case reduce => exact exec_root_rv_of_reduce_or_readout h (.inl rfl)

end Sys2Proof.Machine
end

section
/-! The node store over the steps (20_memory.md R56): who writes a record, where, and that no record is changed. -/

namespace Sys2Proof.Machine

/-- What may enter the store in a step from `s`: the Leaf of the PUSH that is accepted, or an Internal record made by an
accepted MERGE or by the engine of a BUSY block with two trees or more. -/
def Adds (s : State) (n : Node) : Prop :=
  (∃ w rest b x, s.host = .issue w :: rest ∧ decode w = .ok (.push b x) ∧ cmdReady s = true ∧ n = .leaf b x) ∨
    (∃ w rest a b x, s.host = .issue w :: rest ∧ decode w = .ok .merge ∧ cmdReady s = true ∧ n = .internal a b x) ∨
    (s.phase = .busy ∧ 2 ≤ s.count ∧ ∃ a b x, n = .internal a b x)

/-- A merge step writes one Internal record, at `NNODES` (41_reduction.md R123). -/
theorem mergeStep_node {s t : State} (h : mergeStep s = .ok t) :
    ∃ a b x, t.node = s.node.write s.nnodes (.internal a b x) := by
  obtain ⟨a, b, na, nb, -, -, -, -, rfl⟩ := mergeStep_ok h
  exact ⟨a, b, na.weight + nb.weight, rfl⟩

/-- A `Work` step merges, or leaves the store to the finish, which keeps it. -/
theorem work_node {s t : State} (hw : work s = .next t) :
    t.node = s.node ∨ (2 ≤ s.count ∧ ∃ a b x, t.node = s.node.write s.nnodes (.internal a b x)) := by
  rcases work_next.1 hw with ⟨hcount, hmerge⟩ | ⟨-, r, n, -, -, rfl⟩
  · exact .inr ⟨hcount, mergeStep_node hmerge⟩
  · exact .inl rfl

/-- All that a step can do to the node store (R56): keep it, empty it, or write one record at `NNODES`. -/
theorem step_node {s t : State} (hs : step s = .next t) :
    t.node = s.node ∨ (Clears s ∧ t.node = []) ∨ ∃ n, Adds s n ∧ t.node = s.node.write s.nnodes n := by
  cases step_cases hs with
  | stays moves e => subst e; exact .inl rfl
  | took moves r e => subst e; exact .inl rfl
  | reset rest hh e => subst e; exact .inr (.inl ⟨.inl ⟨rest, hh⟩, rfl⟩)
  | worked moves hp hh hw =>
    rcases work_node hw with h | ⟨hcount, a, b, x, h⟩
    · exact .inl h
    · exact .inr (.inr ⟨_, .inr (.inr ⟨hp, hcount, a, b, x, rfl⟩), h⟩)
  | illegal rest hr e => subst e; exact .inl rfl
  | ran w rest i hh hr hd hx =>
    cases hx with
    | cleared => exact .inr (.inl ⟨.inr ⟨w, rest, hh, hd, hr⟩, rfl⟩)
    | pushed b x hleaf hfit => exact .inr (.inr ⟨_, .inl ⟨w, rest, b, x, hh, hd, hr, rfl⟩, rfl⟩)
    | merged u n hcount hmerge hn =>
      obtain ⟨a, b, x, h⟩ := mergeStep_node hmerge
      exact .inr (.inr ⟨_, .inr (.inl ⟨w, rest, a, b, x, hh, hd, hr, rfl⟩), h⟩)
    | raised hi e => exact .inl rfl
    | accepted hcount => exact .inl rfl
    | recordRead k n hn => exact .inl rfl
    | statusRead => exact .inl rfl

/-- `NNODES` is above every record in use, so a write there changes none of them. -/
theorem StateInv.read_write_nnodes {s : State} (h : StateInv s) {i : Nat} {n : Node} (hr : s.node.read i = some n)
    (m : Node) : (s.node.write s.nnodes m).read i = some n := by
  rw [read_write_ne _ _ (h.read_lt hr).ne, hr]

/-- Settles O37: by `step_node`; the one record written is at `NNODES`, where none is in use. -/
theorem recordsAreWrittenOnce : Obligations.RecordsAreWrittenOnce := by
  unfold Obligations.RecordsAreWrittenOnce
  intro s t hinv hs
  rcases step_node hs with e | ⟨hclears, e⟩ | ⟨m, hadds, e⟩ <;> rw [e]
  · exact ⟨fun i n hn => .inl hn, fun i n hn => .inl hn⟩
  · exact ⟨fun i n _ => .inr ⟨read_nil, hclears⟩, fun i n hn => nomatch hn⟩
  · refine ⟨fun i n hn => .inl (hinv.read_write_nnodes hn m), fun i n hn => ?_⟩
    rw [read_write] at hn
    split at hn
    · next hi => exact .inr ⟨hi, Option.some.inj hn ▸ hadds⟩
    · exact .inl hn

end Sys2Proof.Machine
end

section
/-! The command words (30_encoding.md R70 to R79): which words are a command's, by their fields, by their value and by the
match and mask of R73; and what an illegal word does (60_exceptions.md R180). -/

namespace Sys2Proof

open Machine

/-! ## The fields of a command's word -/

/-- R79: the field conditions under which the word `w` is the command `i`, with the operands it names. -/
def HasFields (w : Word) : Instr → Prop
  | .clear => opOf w = 1#4 ∧ field w 0 60 = 0#60
  | .push b x => opOf w = 2#4 ∧ field w 40 20 = 0#20 ∧ b = field w 32 8 ∧ x = field w 0 32
  | .merge => opOf w = 3#4 ∧ field w 0 60 = 0#60
  | .reduce => opOf w = 4#4 ∧ field w 0 60 = 0#60
  | .rdnode k => opOf w = 5#4 ∧ field w 44 16 = 0#16 ∧ field w 0 32 = 0#32 ∧ k = field w 32 12
  | .rdstat => opOf w = 6#4 ∧ field w 0 60 = 0#60

/-- R79: the decoder answers a command exactly when the word has the command's fields. -/
theorem decode_eq_ok_iff (w : Word) (i : Instr) : decode w = .ok i ↔ HasFields w i := by
  constructor
  · intro h
    unfold decode at h
    split_ifs at h <;> cases h <;> simp_all [HasFields]
  · intro h
    cases i <;> simp_all [HasFields, decode]

/-- Joining a word whose low `k` bits are zero with a word of `k` bits adds their values. -/
theorem toNat_or_eq_add {x y : Word} (k : Nat) (hx : 2 ^ k ∣ x.toNat) (hy : y.toNat < 2 ^ k) :
    (x ||| y).toNat = x.toNat + y.toNat := by
  obtain ⟨a, ha⟩ := hx
  rw [BitVec.toNat_or, ha, Nat.two_pow_add_eq_or_of_lt hy]

/-- The value of a PUSH word (R75). -/
theorem encode_push_toNat (b : Byte) (x : Weight) :
    (encode (.push b x)).toNat = 2 * 2 ^ 60 + b.toNat * 2 ^ 32 + x.toNat := by
  have hb : (b.setWidth 64 <<< 32).toNat = b.toNat * 2 ^ 32 := by simp; omega
  have hx : (x.setWidth 64).toNat = x.toNat := BitVec.toNat_setWidth_of_le (by decide)
  have hop : (2#64 <<< 60 ||| b.setWidth 64 <<< 32).toNat = 2 * 2 ^ 60 + b.toNat * 2 ^ 32 := by
    rw [toNat_or_eq_add 60 (by decide) (by omega), hb]; rfl
  rw [encode, toNat_or_eq_add 32 (by omega) (by rw [hx]; exact x.isLt), hop, hx]

/-- The value of an RDNODE word (R75). -/
theorem encode_rdnode_toNat (k : IdxField) : (encode (.rdnode k)).toNat = 5 * 2 ^ 60 + k.toNat * 2 ^ 32 := by
  have hk : (k.setWidth 64 <<< 32).toNat = k.toNat * 2 ^ 32 := by simp; omega
  rw [encode, toNat_or_eq_add 60 (by decide) (by omega), hk]; rfl

/-- A word has a command's fields exactly when it is the command's word. -/
theorem hasFields_iff (w : Word) (i : Instr) : HasFields w i ↔ encode i = w := by
  cases i with
  | push b x =>
    simp only [HasFields, opOf, BitVec.toNat_eq, field_toNat, BitVec.toNat_ofNat, encode_push_toNat]; omega
  | rdnode k =>
    simp only [HasFields, opOf, BitVec.toNat_eq, field_toNat, BitVec.toNat_ofNat, encode_rdnode_toNat]; omega
  | _ =>
    simp only [HasFields, opOf, BitVec.toNat_eq, field_toNat, BitVec.toNat_ofNat, encode, BitVec.toNat_shiftLeft]; omega

/-- R79: a word decodes to a command exactly when it is the command's word; both round trips in one. -/
theorem decode_eq_ok_iff_encode (w : Word) (i : Instr) : decode w = .ok i ↔ encode i = w :=
  (decode_eq_ok_iff w i).trans (hasFields_iff w i)

/-- Settles O8: the round trips by `decode_eq_ok_iff_encode`, the fields by `decode_eq_ok_iff`. -/
theorem decodeAndEncodeAgree : Obligations.DecodeAndEncodeAgree := by
  unfold Obligations.DecodeAndEncodeAgree
  refine ⟨fun i _ => (decode_eq_ok_iff_encode _ i).2 rfl, fun w i => (decode_eq_ok_iff_encode w i).1, fun w => ?_,
    rfl, rfl, rfl, rfl, fun _ _ => rfl, fun _ => rfl⟩
  simp only [decode_eq_ok_iff, HasFields, BitVec.toNat_eq]
  exact ⟨.rfl, fun _ _ => .rfl, .rfl, .rfl, fun _ => .rfl, .rfl⟩

/-! ## The match and mask of R73 -/

/-- The command of the row of `i` with its operands taken from the word `w` (R75). -/
def Instr.withOperandsOf (w : Word) : Instr → Instr
  | .push _ _ => .push (field w 32 8) (field w 0 32)
  | .rdnode _ => .rdnode (field w 32 12)
  | i => i

theorem matchOf_withOperandsOf (w : Word) (i : Instr) : matchOf (i.withOperandsOf w) = matchOf i := by
  cases i <;> rfl

/-- The bits outside a row's mask are the operands. -/
theorem encode_withOperandsOf (w : Word) (i : Instr) :
    encode (i.withOperandsOf w) = matchOf i ||| (w &&& ~~~maskOf i) := by
  apply BitVec.eq_of_getLsbD_eq
  intro j hj
  cases i with
  | push | rdnode =>
    simp only [Instr.withOperandsOf, encode, matchOf, maskOf]
    interval_cases j <;> simp [field]
  | _ => simp [Instr.withOperandsOf, encode, matchOf, maskOf]

/-- A word that matches a row is the word of the row's command with the operands it carries. -/
theorem encode_withOperandsOf_of_match {w : Word} {i : Instr} (h : w &&& maskOf i = matchOf i) :
    encode (i.withOperandsOf w) = w := by
  rw [encode_withOperandsOf, ← h, ← BitVec.and_or_distrib_left, BitVec.or_not_self, BitVec.and_allOnes]

/-- R73: every command's word matches its row. -/
theorem encode_and_maskOf (i : Instr) : encode i &&& maskOf i = matchOf i := by
  cases i with
  | clear => exact Laws.MatchMask.clear
  | push b x => exact Laws.MatchMask.push b x
  | merge => exact Laws.MatchMask.merge
  | reduce => exact Laws.MatchMask.reduce
  | rdnode k => exact Laws.MatchMask.rdnode k
  | rdstat => exact Laws.MatchMask.rdstat

/-- Two commands with one match are of one row, and have its mask. -/
theorem maskOf_eq_of_matchOf_eq {i j : Instr} (h : matchOf i = matchOf j) : maskOf i = maskOf j := by
  cases i <;> cases j <;> simp_all [matchOf, maskOf]

/-- R73: a word matches a row exactly when it decodes to a command of the row. -/
theorem match_iff_decode (w : Word) (i : Instr) :
    w &&& maskOf i = matchOf i ↔ ∃ j, decode w = .ok j ∧ matchOf j = matchOf i := by
  constructor
  · intro h
    exact ⟨i.withOperandsOf w, (decode_eq_ok_iff_encode w _).2 (encode_withOperandsOf_of_match h),
      matchOf_withOperandsOf w i⟩
  · rintro ⟨j, hd, hj⟩
    rw [← (decode_eq_ok_iff_encode w j).1 hd, ← maskOf_eq_of_matchOf_eq hj, encode_and_maskOf, hj]

/-- A word is illegal exactly when it decodes to no command. -/
theorem decode_error_iff (w : Word) : (∃ e, decode w = .error e) ↔ ∀ i, decode w ≠ .ok i := by
  cases decode w <;> simp

/-- Settles O9: by `match_iff_decode`, a word having one decoding. -/
theorem opcodeTableSelectsTheCommand : Obligations.OpcodeTableSelectsTheCommand := by
  unfold Obligations.OpcodeTableSelectsTheCommand
  refine ⟨match_iff_decode, fun w i j hi hj => ?unique, fun w => ?illegal⟩
  case unique =>
    obtain ⟨k, hk, hki⟩ := (match_iff_decode w i).1 hi
    obtain ⟨l, hl, hlj⟩ := (match_iff_decode w j).1 hj
    cases hk.symm.trans hl
    exact hki.symm.trans hlj
  case illegal =>
    rw [decode_error_iff]
    constructor
    · exact fun h i hd => h i ((match_iff_decode w i).2 ⟨i, hd, rfl⟩)
    · intro h i hm
      obtain ⟨j, hd, -⟩ := (match_iff_decode w i).1 hm
      exact h j hd

/-! ## Illegal words -/

/-- R78: the words that are some command's, by `OP` and the must-be-zero bits of its format. -/
theorem exists_hasFields_iff (w : Word) : (∃ i, HasFields w i) ↔
    ((opOf w = 1#4 ∨ opOf w = 3#4 ∨ opOf w = 4#4 ∨ opOf w = 6#4) ∧ field w 0 60 = 0#60) ∨
    (opOf w = 2#4 ∧ field w 40 20 = 0#20) ∨
    (opOf w = 5#4 ∧ field w 44 16 = 0#16 ∧ field w 0 32 = 0#32) := by
  constructor
  · rintro ⟨i, h⟩
    cases i <;> simp_all [HasFields]
  · rintro (⟨hop | hop | hop | hop, hz⟩ | ⟨hop, hz⟩ | ⟨hop, hz, hz'⟩)
    · exact ⟨.clear, hop, hz⟩
    · exact ⟨.merge, hop, hz⟩
    · exact ⟨.reduce, hop, hz⟩
    · exact ⟨.rdstat, hop, hz⟩
    · exact ⟨.push _ _, hop, hz, rfl, rfl⟩
    · exact ⟨.rdnode _, hop, hz, hz', rfl⟩

/-- R78: the illegal words, by `OP` and the must-be-zero bits of its format. -/
theorem illegal_iff (w : Word) : (∃ e, decode w = .error e) ↔
    (opOf w).toNat = 0 ∨ 7 ≤ (opOf w).toNat ∨
    (((opOf w).toNat = 1 ∨ (opOf w).toNat = 3 ∨ (opOf w).toNat = 4 ∨ (opOf w).toNat = 6) ∧ (field w 0 60).toNat ≠ 0) ∨
    ((opOf w).toNat = 2 ∧ (field w 40 20).toNat ≠ 0) ∨
    ((opOf w).toNat = 5 ∧ ((field w 44 16).toNat ≠ 0 ∨ (field w 0 32).toNat ≠ 0)) := by
  rw [decode_error_iff]
  simp only [decode_eq_ok_iff, ne_eq, ← not_exists, exists_hasFields_iff, BitVec.toNat_eq, BitVec.toNat_ofNat]
  omega

/-- R180: a ready block accepts an illegal word and raises IllegalCommand. -/
theorem step_issue_illegal {s : State} {w : Word} {rest : List HostMove} (hd : ∃ e, decode w = .error e)
    (hr : cmdReady s = true) (hh : s.host = .issue w :: rest) :
    step s = .next (raise .illegalCommand { s with host := rest }) := by
  obtain ⟨e, hd⟩ := hd
  simp only [step, turn, hh, hr, if_true, issue, hd]

/-- Settles O10: the illegal words are those with no command's fields. -/
theorem illegalWordsAreNotExecuted : Obligations.IllegalWordsAreNotExecuted := by
  unfold Obligations.IllegalWordsAreNotExecuted
  exact ⟨illegal_iff, fun _ _ _ => step_issue_illegal⟩

end Sys2Proof
end

section
/-! The response words (30_encoding.md R76): their fields, and the host's reading of a record (R77, U14). -/

namespace Sys2Proof.Machine

/-- The fields of an RX word; its TAG is `rxWord_tag`. -/
theorem rxWord_fields {i : Nat} (hi : i < 4096) (n : Node) :
    (field (rxWord i n) 44 12).toNat = 0 ∧ (field (rxWord i n) 32 12).toNat = i ∧
      (field (rxWord i n) 0 32).toNat = n.weight.toNat := by
  have := n.weight.isLt; have := n.tag.isLt
  simp only [field_toNat, rxWord_toNat, zext12_toNat hi]
  omega

/-- The fields of the RN word of a Leaf. -/
theorem rnWord_leaf_fields (b : Byte) (x : Weight) :
    (rcOf (rnWord (.leaf b x))).toNat = 0 ∧ (field (rnWord (.leaf b x)) 56 4).toNat = 0 ∧
      (field (rnWord (.leaf b x)) 40 16).toNat = 0 ∧ (field (rnWord (.leaf b x)) 32 8).toNat = b.toNat ∧
      (field (rnWord (.leaf b x)) 0 32).toNat = x.toNat := by
  have := b.isLt; have := x.isLt
  simp only [rcOf, opOf, field_toNat, rnWord_toNat]
  omega

/-- The fields of the RN word of an Internal record whose children are 12-bit indices. -/
theorem rnWord_internal_fields {l r : Nat} (hl : l < 4096) (hr : r < 4096) (x : Weight) :
    (rcOf (rnWord (.internal l r x))).toNat = 0 ∧ (field (rnWord (.internal l r x)) 56 4).toNat = 1 ∧
      (field (rnWord (.internal l r x)) 44 12).toNat = l ∧ (field (rnWord (.internal l r x)) 32 12).toNat = r ∧
      (field (rnWord (.internal l r x)) 0 32).toNat = x.toNat := by
  have := x.isLt
  simp only [rcOf, opOf, field_toNat, rnWord_toNat, zext12_toNat hl, zext12_toNat hr]
  omega

/-- The fields of the status word of a state whose counters are 12-bit numbers. -/
theorem rsWord_fields {s : State} (hroot : s.root < 4096) (hnnodes : s.nnodes < 4096) (hnleaf : s.nleaf < 4096)
    (hcount : s.count < 4096) :
    (rcOf (rsWord s)).toNat = 0 ∧ (field (rsWord s) 52 8).toNat = s.fault.toNat ∧ (field (rsWord s) 49 3).toNat = 0 ∧
      (field (rsWord s) 48 1).toNat = s.rv.toNat ∧ (field (rsWord s) 36 12).toNat = s.root ∧
      (field (rsWord s) 24 12).toNat = s.nnodes ∧ (field (rsWord s) 12 12).toNat = s.nleaf ∧
      (field (rsWord s) 0 12).toNat = s.count := by
  have := s.fault.isLt; have := s.rv.toNat_lt
  simp only [rcOf, opOf, field_toNat, rsWord_toNat, zext12_toNat, *]
  omega

/-- The TAG field tells a Leaf from an Internal record (R21). -/
theorem Node.tag_toNat (n : Node) : n.tag.toNat = if n.isLeaf then 0 else 1 := by
  cases n <;> rfl

/-- Settles O12: format by format. -/
theorem responseFormats : Obligations.ResponseFormats := by
  unfold Obligations.ResponseFormats
  refine ⟨fun e => ?re, by decide, fun i n hi => ?rx, rnWord_leaf_fields, fun l r x hl hr => rnWord_internal_fields hl hr x,
    fun s h₁ h₂ h₃ h₄ => rsWord_fields h₁ h₂ h₃ h₄⟩
  case re => cases e <;> decide
  case rx =>
    exact ⟨congrArg BitVec.toNat (rcOf_rxWord i n), (rxWord_tag i n).trans n.tag_toNat, rxWord_fields hi n⟩

/-- What the host reads in a word: the fields of a Leaf's RN word, or of an Internal record's (U14). -/
theorem readRn_eq_some {w : Word} {n : Node} (h : readRn w = some n) :
    rcOf w = 0#4 ∧
      ((field w 56 4 = 0#4 ∧ field w 40 16 = 0#16 ∧ n = .leaf (field w 32 8) (field w 0 32)) ∨
       (field w 56 4 = 1#4 ∧ n = .internal (field w 44 12).toNat (field w 32 12).toNat (field w 0 32))) := by
  unfold readRn at h
  split_ifs at h <;> simp_all

/-- A word that the host reads is the RN word of the record it reads. -/
theorem rnWord_of_readRn {w : Word} {n : Node} (h : readRn w = some n) : rnWord n = w := by
  have := w.isLt
  apply BitVec.eq_of_toNat_eq
  rw [rnWord_toNat]
  obtain ⟨hrc, ⟨htag, hz, rfl⟩ | ⟨htag, rfl⟩⟩ := readRn_eq_some h <;>
    simp only [rcOf, opOf, BitVec.toNat_eq, field_toNat, zext12, BitVec.toNat_ofNat] at * <;> omega

/-- Settles O13: the fields of the words, and the converse by `rnWord_of_readRn`. -/
theorem recordWordReadsBack : Obligations.RecordWordReadsBack := by
  unfold Obligations.RecordWordReadsBack
  refine ⟨fun b x => ?leaf, fun l r x hl hr => ?internal, fun _ _ => rnWord_of_readRn⟩
  case leaf =>
    obtain ⟨hrc, htag, hz, hb, hx⟩ := rnWord_leaf_fields b x
    rw [BitVec.toNat_inj] at hb hx
    simp [readRn, BitVec.toNat_eq, hrc, htag, hz, hb, hx]
  case internal =>
    obtain ⟨hrc, htag, hleft, hright, hx⟩ := rnWord_internal_fields hl hr x
    rw [BitVec.toNat_inj] at hx
    simp [readRn, BitVec.toNat_eq, hrc, htag, hleft, hright, hx]

end Sys2Proof.Machine
end

section
/-! The assembler's PUSHTABLE and the forest of a frequency table (30_encoding.md R80, R81; 00_scope.md R10). -/

namespace Sys2Proof.Machine

/-- R81: the PUSH an entry of a PUSHTABLE stands for. -/
def pushOf (e : Nat × Nat) : Instr := .push (BitVec.ofNat 8 e.1) (BitVec.ofNat 32 e.2)

/-- R80: a PUSHTABLE is well formed when the operands of every entry fit. -/
theorem pushTable_wellFormed_iff (es : List (Nat × Nat)) :
    (AsmLine.pushTable es).wellFormed = true ↔ ∀ e ∈ es, e.1 ≤ 255 ∧ e.2 ≤ 4294967295 := by
  simp [AsmLine.wellFormed, byteFits, weightFits, Nat.lt_succ_iff]

/-- R81: a PUSHTABLE whose operands fit. -/
theorem assemble_pushTable {es : List (Nat × Nat)} (h : ∀ e ∈ es, e.1 ≤ 255 ∧ e.2 ≤ 4294967295) :
    assemble (.pushTable es) = some (es.map pushOf) :=
  if_pos ((pushTable_wellFormed_iff es).2 h)

/-- R80: an operand that does not fit is an assembly error. -/
theorem assemble_pushTable_none {es : List (Nat × Nat)} {e : Nat × Nat} (he : e ∈ es)
    (h : e.1 > 255 ∨ e.2 > 4294967295) : assemble (.pushTable es) = none := by
  refine if_neg fun hwf => ?_
  obtain ⟨hb, hx⟩ := (pushTable_wellFormed_iff es).1 hwf e he
  omega

/-- R10: the forest of a table whose counts fit a weight. -/
theorem buildForest_eq {t : FrequencyTable} (h : ∀ e ∈ t, e.2 ≤ 4294967295) :
    buildForest t = some (t.map fun e => .push e.1 (BitVec.ofNat 32 e.2)) := by
  have hfit : ∀ e ∈ t.map fun e => (e.1.toNat, e.2), e.1 ≤ 255 ∧ e.2 ≤ 4294967295 := by
    simp only [List.forall_mem_map]
    exact fun e he => ⟨Nat.le_of_lt_succ e.1.isLt, h e he⟩
  rw [buildForest, assemble_pushTable hfit, List.map_map]
  simp [pushOf, Function.comp_def]

/-- Settles O50: by `assemble_pushTable`, entry by entry. -/
theorem pushTableIsOnePushPerEntry : Obligations.PushTableIsOnePushPerEntry := by
  unfold Obligations.PushTableIsOnePushPerEntry
  refine ⟨fun es h => ⟨_, assemble_pushTable h, List.length_map _, fun k b x hk => ?_⟩,
    fun es e he h => assemble_pushTable_none he h, fun t h => buildForest_eq h⟩
  simp [hk, pushOf]

end Sys2Proof.Machine
end

section
/-! Loading the forest (40_forest_load.md): CLEAR, PUSH and its frame, and R105, that nothing but RDNODE looks at `BYTE`. -/

namespace Sys2Proof.Machine

/-! ## CLEAR and PUSH -/

/-- Settles O14: the status word CLEAR answers, that of the emptied block, is zero. -/
theorem clearEmptiesForestStoreAndStatus : Obligations.ClearEmptiesForestStoreAndStatus := by
  unfold Obligations.ClearEmptiesForestStoreAndStatus
  refine ⟨(decode_eq_ok_iff_encode _ _).2 rfl, fun s hr => execClear_next.2 (.inr ⟨hr, ?_⟩)⟩
  rw [rsWord_clearAll]
  rfl

/-- R75: the value of the word of PUSH. -/
theorem decode_push_iff (b : Byte) (x : Weight) (w : Word) :
    decode w = .ok (.push b x) ↔ w.toNat = 2 * 2 ^ 60 + b.toNat * 2 ^ 32 + x.toNat := by
  rw [decode_eq_ok_iff_encode, BitVec.toNat_eq, encode_push_toNat, eq_comm]

/-- Where a leaf still fits, two records are free: by `COUNT + NNODES = 2 * NLEAF` (10_state.md R34 V2), a forest that is
not empty having a tree (V3). -/
theorem StateInv.nnodes_le_of_not_full {s : State} (h : StateInv s) (hleaf : s.nleaf ≠ 256) : s.nnodes ≤ 509 := by
  have hsum := h.v2_count
  have hmax := h.v3_nleaf
  have hsome := h.v3_some
  omega

/-- Settles O15: case by case of `execPush_next`. -/
theorem pushMakesALeaf : Obligations.PushMakesALeaf := by
  unfold Obligations.PushMakesALeaf
  refine ⟨decode_push_iff, fun b x s hr => ⟨fun hfull => ?full, fun hleaf hover => ?overflow,
    fun hleaf hfit hfree => ⟨?sum, ?leaf⟩, StateInv.nnodes_le_of_not_full, ?zero⟩⟩
  case full => exact execPush_next.2 (.inr (.inl ⟨hr, hfull, rfl⟩))
  case overflow => exact execPush_next.2 (.inr (.inr (.inl ⟨hr, hleaf, hover, rfl⟩)))
  case sum => exact BitVec.toNat_add_of_lt (by omega)
  case leaf => exact execPush_next.2 (.inr (.inr (.inr ⟨hr, hleaf, hfit, by omega, rfl⟩)))
  case zero =>
    rintro rfl
    exact Nat.le_of_lt_succ s.total.isLt

/-- Settles O41: PUSH is held, raises, or makes its leaf. -/
theorem pushFrame : Obligations.PushFrame := by
  unfold Obligations.PushFrame
  intro b x s t h
  rcases exec_next h with ⟨-, rfl⟩ | ⟨-, hx⟩
  · exact ⟨rfl, fun _ _ => rfl, fun _ _ => .rfl, .inr ⟨rfl, fun _ => .inl⟩⟩
  · cases hx with
    | raised hi e => exact ⟨rfl, fun _ _ => rfl, fun _ _ => .rfl, .inl ⟨e, rfl⟩⟩
    | pushed _ _ hleaf hfit =>
      refine ⟨rfl, fun a ha => read_write_ne _ _ ha, fun i hi => ?_, .inr ⟨rfl, fun r hrsp => .inr ?_⟩⟩
      · exact (mem_qInsert _ _ _).trans (or_iff_right hi)
      · cases hrsp
        exact rcOf_rxWord _ _

/-! ## Blanking the bytes of leaves (R105)

The machine commutes with blanking every `BYTE`, RDNODE apart. Runs from states that blank to one state then blank alike. -/

@[simp] theorem Node.blankByte_weight (n : Node) : n.blankByte.weight = n.weight := by cases n <;> rfl

@[simp] theorem Node.blankByte_tag (n : Node) : n.blankByte.tag = n.tag := by cases n <;> rfl

/-- RX answers the index, the tag and the weight, not the byte (30_encoding.md R76). -/
@[simp] theorem rxWord_blankByte (i : Nat) (n : Node) : rxWord i n.blankByte = rxWord i n := by simp [rxWord]

@[simp] theorem read_blankBytes (m : Memory) (i : Nat) :
    Memory.read (m.map fun e => (e.1, e.2.blankByte)) i = (m.read i).map Node.blankByte := by
  induction m with
  | nil => rfl
  | cons e rest ih =>
    obtain ⟨j, n⟩ := e
    simp only [List.map_cons, read_cons, ih]
    split <;> rfl

theorem write_blankBytes (m : Memory) (i : Nat) (n : Node) :
    Memory.write (m.map fun e => (e.1, e.2.blankByte)) i n.blankByte =
      (m.write i n).map fun e => (e.1, e.2.blankByte) := by
  induction m with
  | nil => rfl
  | cons e rest ih =>
    simp only [List.map_cons, Memory.write, ih]
    split_ifs <;> rfl

@[simp] theorem readNode_blankBytes (m : Memory) (i : Nat) :
    readNode (m.map fun e => (e.1, e.2.blankByte)) i = (readNode m i).map Node.blankByte := by
  unfold readNode
  rw [read_blankBytes]
  cases m.read i <;> rfl

@[simp] theorem queueWeights_blankBytes (m : Memory) (S : List Nat) :
    queueWeights (m.map fun e => (e.1, e.2.blankByte)) S = queueWeights m S := by
  induction S with
  | nil => rfl
  | cons i rest ih =>
    simp only [queueWeights, read_blankBytes, ih]
    cases m.read i <;> cases queueWeights m rest <;> simp

/-- Extraction compares weights only (41_reduction.md R120). -/
@[simp] theorem extractMin_blankBytes (pol : TiePolicy) (c : Nat) (m : Memory) (S : List Nat) :
    extractMin pol c (m.map fun e => (e.1, e.2.blankByte)) S = extractMin pol c m S := by
  simp only [extractMin, queueWeights_blankBytes]

theorem allocNode_blankBytes (n : Node) (s : State) :
    allocNode n.blankByte (blankBytes s) = (allocNode n s).map blankBytes := by
  unfold allocNode
  rw [apply_ite (Except.map blankBytes)]
  simp only [allocIndex, blankBytes_node, write_blankBytes]
  rfl

/-- A merge step looks at indices and weights, and makes an Internal record, which has no byte (R123). -/
theorem mergeStepWith_blankBytes (pol : TiePolicy) (c₁ c₂ : Nat) (s : State) :
    mergeStepWith pol c₁ c₂ (blankBytes s) = (mergeStepWith pol c₁ c₂ s).map blankBytes := by
  unfold mergeStepWith
  simp only [blankBytes_node, blankBytes_q, extractMin_blankBytes, readNode_blankBytes]
  cases extractMin pol c₁ s.node s.q with
  | error f => rfl
  | ok a =>
    dsimp only
    cases extractMin pol c₂ s.node (qRemove a s.q) with
    | error f => rfl
    | ok b =>
      dsimp only
      cases readNode s.node a with
      | error f => rfl
      | ok na =>
        cases readNode s.node b with
        | error f => rfl
        | ok nb =>
          simp only [Except.map, Node.blankByte_weight]
          exact allocNode_blankBytes (.internal a b (na.weight + nb.weight))
            { s with q := qRemove b (qRemove a s.q), count := s.count - 1, tie := s.tie + 2 }

/-- An outcome with every Leaf's BYTE blanked in its next state. -/
def blankOutcome : Host.Outcome State Fault Refusal → Host.Outcome State Fault Refusal
  | .next s => .next (blankBytes s)
  | .fault f => .fault f
  | .refused r => .refused r

/-- Two outcomes blank to one exactly when they end the same way, in states that differ only in the bytes of leaves. -/
theorem outcomesAgree_iff_blankOutcome_eq (o p : Host.Outcome State Fault Refusal) :
    OutcomesAgree (fun t u => blankBytes t = blankBytes u) o p ↔ blankOutcome o = blankOutcome p := by
  cases o <;> cases p <;> simp [blankOutcome, OutcomesAgree]

theorem respondNode_blankBytes (i : Nat) (s : State) :
    respondNode i (blankBytes s) = blankOutcome (respondNode i s) := by
  unfold respondNode
  rw [blankBytes_node, readNode_blankBytes]
  cases readNode s.node i with
  | error f => rfl
  | ok n => simp only [Except.map, rxWord_blankByte]; rfl

/-- Whether a command is accepted does not depend on a byte. -/
theorem whenReady_blankBytes {act act' : State → Host.Outcome State Fault Refusal} {s : State}
    (h : act' (blankBytes s) = blankOutcome (act s)) :
    whenReady (blankBytes s) act' = blankOutcome (whenReady s act) := by
  unfold whenReady
  rw [apply_ite blankOutcome, h]
  rfl

theorem execClear_blankBytes (s : State) : execClear (blankBytes s) = blankOutcome (execClear s) := by
  refine whenReady_blankBytes ?_
  rfl

theorem execRdstat_blankBytes (s : State) : execRdstat (blankBytes s) = blankOutcome (execRdstat s) := by
  refine whenReady_blankBytes ?_
  rfl

theorem execPush_blankBytes (b : Byte) (x : Weight) (s : State) :
    execPush 0#8 x (blankBytes s) = blankOutcome (execPush b x s) := by
  refine whenReady_blankBytes ?_
  simp only [apply_ite blankOutcome, blankBytes_total]
  refine if_congr Iff.rfl rfl (if_congr Iff.rfl rfl ?_)
  have halloc : allocNode (.leaf 0#8 x) (blankBytes s) = _ := allocNode_blankBytes (.leaf b x) s
  rw [halloc]
  cases allocNode (.leaf b x) s with
  | error f => rfl
  | ok t =>
    exact respondNode_blankBytes (allocIndex s)
      { t with nleaf := s.nleaf + 1, count := s.count + 1, total := s.total + x, rv := false }

/-- The same choices among tied trees are made: blanking leaves the counter of free choices. -/
theorem mergeStep_blankBytes (s : State) : mergeStep (blankBytes s) = (mergeStep s).map blankBytes :=
  mergeStepWith_blankBytes _ _ _ s

theorem execMerge_blankBytes (s : State) : execMerge (blankBytes s) = blankOutcome (execMerge s) := by
  refine whenReady_blankBytes ?_
  simp only [apply_ite blankOutcome, blankBytes_count]
  refine if_congr Iff.rfl rfl (if_congr Iff.rfl rfl ?_)
  rw [mergeStep_blankBytes]
  cases mergeStep s with
  | error f => rfl
  | ok t => exact respondNode_blankBytes (allocIndex s) { t with rv := false }

theorem execReduce_blankBytes (s : State) : execReduce (blankBytes s) = blankOutcome (execReduce s) := by
  refine whenReady_blankBytes ?_
  simp only [apply_ite blankOutcome]
  rfl

/-- A command with the byte of a PUSH blanked. -/
def blankInstr : Instr → Instr
  | .push _ x => .push 0#8 x
  | i => i

/-- Every command but RDNODE commutes with blanking the bytes, the one a PUSH brings among them (R105). -/
theorem exec_blankBytes {i : Instr} (hi : ∀ k, i ≠ .rdnode k) (s : State) :
    exec (blankInstr i) (blankBytes s) = blankOutcome (exec i s) := by
  cases i with
  | clear => exact execClear_blankBytes s
  | push b x => exact execPush_blankBytes b x s
  | merge => exact execMerge_blankBytes s
  | reduce => exact execReduce_blankBytes s
  | rdnode k => exact absurd rfl (hi k)
  | rdstat => exact execRdstat_blankBytes s

/-- A `Work` step commutes with blanking the bytes (R105). -/
theorem work_blankBytes (s : State) : work (blankBytes s) = blankOutcome (work s) := by
  unfold work
  rw [apply_ite blankOutcome]
  refine if_congr Iff.rfl ?merge ?finish
  case merge =>
    rw [mergeStep_blankBytes]
    cases mergeStep s <;> rfl
  case finish =>
    unfold finishReduce
    rw [blankBytes_q]
    split
    · next r _ => exact respondNode_blankBytes r { s with root := r, rv := true, phase := .idle }
    · rfl

/-- Two commands that blank to one, from two states that blank to one, end alike. -/
theorem exec_agree_of_blank_eq {i j : Instr} {s t : State} (hi : ∀ k, i ≠ .rdnode k) (hj : ∀ k, j ≠ .rdnode k)
    (hij : blankInstr i = blankInstr j) (h : blankBytes s = blankBytes t) :
    OutcomesAgree (fun u v => blankBytes u = blankBytes v) (exec i s) (exec j t) := by
  rw [outcomesAgree_iff_blankOutcome_eq, ← exec_blankBytes hi, ← exec_blankBytes hj, hij, h]

/-- Settles O48: every command but RDNODE, and a `Work` step, commute with blanking the bytes. -/
theorem bytesAreNeverInspected : Obligations.BytesAreNeverInspected := by
  unfold Obligations.BytesAreNeverInspected
  refine ⟨fun b b' x s s' h => ?push, fun i s s' hi h => ?command, fun s s' h => ?work⟩
  case push => exact exec_agree_of_blank_eq (by simp) (by simp) rfl h
  case command => exact exec_agree_of_blank_eq hi hi rfl h
  case work => rw [outcomesAgree_iff_blankOutcome_eq, ← work_blankBytes, ← work_blankBytes, h]

end Sys2Proof.Machine
end

section
/-! Extraction and the merge step (41_reduction.md R121 to R124): what R121 and R122 allow is what is extracted, a merge step
always runs on two trees, and what MERGE and a `Work` step leave alone. -/

namespace Sys2Proof.Machine

/-! ## extract_min -/

/-- Settles O23: soundness and completeness of the pick; a member without a rival is the only one that can be picked. -/
theorem extractMinAnyYieldsSomeLeastMember : Obligations.ExtractMinAnyYieldsSomeLeastMember := by
  unfold Obligations.ExtractMinAnyYieldsSomeLeastMember
  refine ⟨fun c m S i => extractMin_sound, fun m S i => extractMin_any_complete, fun m S i c hi hsole => ?sole,
    fun c m S => extractMin_ok .any c⟩
  case sole =>
    obtain ⟨j, hj⟩ := extractMin_ok .any c (List.ne_nil_of_mem hi.1) hi.isSome
    rw [hj, hsole j (extractMin_sound hj)]

/-- R122: `FIFO` does not look at the free choice. -/
theorem pickTie_fifo_choice (c d : Nat) (L : List Nat) : pickTie .fifo c L = pickTie .fifo d L := by
  match L with
  | [] => rfl
  | [_] => rfl
  | _ :: _ :: _ => rfl

theorem extractMin_fifo_choice (c d : Nat) (m : Memory) (S : List Nat) :
    extractMin .fifo c m S = extractMin .fifo d m S := by
  unfold extractMin
  cases queueWeights m S with
  | none => rfl
  | some ws => exact pickTie_fifo_choice c d _

/-- Settles O24: the least index is one of the least members; neither extraction of a merge step looks at its choice. -/
theorem extractMinFifoYieldsTheLeastIndex : Obligations.ExtractMinFifoYieldsTheLeastIndex := by
  unfold Obligations.ExtractMinFifoYieldsTheLeastIndex
  refine ⟨fun c m S i => extractMin_fifo_iff, fun c m S i h => extractMin_any_complete (extractMin_sound h),
    fun c₁ c₂ d₁ d₂ s => ?choice⟩
  case choice =>
    unfold mergeStepWith
    simp only [extractMin_fifo_choice c₁ d₁, extractMin_fifo_choice c₂ d₂]

/-! ## The merge step -/

/-- Every root has a record (10_state.md R34 V1, R22). -/
theorem StateInv.queue_isSome {s : State} (h : StateInv s) : ∀ i ∈ s.q, (s.node.read i).isSome := fun i hi =>
  (h.stored i).2 (h.v1_members i hi)

/-- R131: with two trees or more a record is free, by `COUNT + NNODES = 2 * NLEAF` (V2). -/
theorem StateInv.nnodes_le_of_two {s : State} (h : StateInv s) (h2 : 2 ≤ s.count) : s.nnodes ≤ 510 := by
  have hsum := h.v2_count
  have hmax := h.v3_nleaf
  omega

/-- On two trees or more a merge step runs, under either policy and whatever the choices (R123). -/
theorem StateInv.mergeStepWith_runs {s : State} (h : StateInv s) (h2 : 2 ≤ s.count) (pol : TiePolicy) (c₁ c₂ : Nat) :
    ∃ t, mergeStepWith pol c₁ c₂ s = .ok t :=
  Machine.mergeStepWith_runs pol c₁ c₂ (qWf_nodup h.queueWf) (h.v1_count ▸ h2) h.queue_isSome
    (Nat.lt_succ_of_le (h.nnodes_le_of_two h2))

/-- R123: the tree extracted first is another than the second, and not heavier. -/
theorem MinOf.left_le_right {m : Memory} {S : List Nat} {a b : Nat} {na nb : Node} (ha : MinOf m S a)
    (hb : MinOf m (qRemove a S) b) (hna : m.read a = some na) (hnb : m.read b = some nb) :
    a ≠ b ∧ na.weight ≤ nb.weight := by
  obtain ⟨hbS, hba⟩ := (mem_qRemove a b S).1 hb.1
  have hle := ha.weight_le.2 b hbS
  rw [weightAt_of_read hna, weightAt_of_read hnb] at hle
  exact ⟨hba.symm, hle⟩

/-- R131: the sum of a merge step does not wrap, being at most `TOTAL`. -/
theorem StateInv.merge_weight {s : State} (h : StateInv s) {a b : Nat} {na nb : Node} (ha : MinOf s.node s.q a)
    (hb : MinOf s.node (qRemove a s.q) b) (hna : s.node.read a = some na) (hnb : s.node.read b = some nb) :
    (na.weight + nb.weight).toNat = na.weight.toNat + nb.weight.toNat := by
  have hsum := h.merge_sum ha hb hna hnb
  have htotal := s.total.isLt
  exact BitVec.toNat_add_of_lt (by omega)

/-- Settles O25: a merge step runs and extracts two least members in turn; under ANY some choices extract any such pair. -/
theorem mergeStepJoinsTheTwoLightest : Obligations.MergeStepJoinsTheTwoLightest := by
  unfold Obligations.MergeStepJoinsTheTwoLightest
  refine ⟨fun pol c₁ c₂ s h h2 => ?step, fun s a b h h2 ha hb => ?pair⟩
  case step =>
    obtain ⟨t, ht⟩ := h.mergeStepWith_runs h2 pol c₁ c₂
    obtain ⟨a, b, na, nb, hxa, hxb, hna, hnb, -, rfl⟩ := mergeStepWith_ok ht
    have ha := extractMin_sound hxa
    have hb := extractMin_sound hxb
    obtain ⟨hab, hle⟩ := ha.left_le_right hb hna hnb
    have hfifo : pol = .fifo → MinOfFifo s.node s.q a ∧ MinOfFifo s.node (qRemove a s.q) b := by
      rintro rfl
      exact ⟨extractMin_fifo_iff.1 hxa, extractMin_fifo_iff.1 hxb⟩
    exact ⟨a, b, na, nb, _, ha, hb, hna, hnb, hab, hle, h.merge_weight ha hb hna hnb, hfifo, ht, rfl⟩
  case pair =>
    obtain ⟨c₁, hxa⟩ := extractMin_any_complete ha
    obtain ⟨c₂, hxb⟩ := extractMin_any_complete hb
    have ⟨na, hna, _⟩ := ha.2
    have ⟨nb, hnb, _⟩ := hb.2
    exact ⟨c₁, c₂, _, _, mergeStepWith_of hxa hxb hna hnb (Nat.lt_succ_of_le (h.nnodes_le_of_two h2)),
      read_write_same .., (mem_qInsert ..).2 (.inl rfl)⟩

/-! ## MERGE and REDUCE -/

/-- What MERGE does on two trees or more: a merge step, with RX of the new node (R124). -/
theorem execMerge_of_mergeStep {s u : State} (hr : cmdReady s = true) (h2 : 2 ≤ s.count) (hu : mergeStep s = .ok u)
    {n : Node} (hn : u.node.read s.nnodes = some n) :
    exec .merge s = .next (respond (rxWord s.nnodes n) { u with rv := false }) :=
  execMerge_next.2 (.inr (.inr (.inr ⟨hr, h2, u, n, hu, hn, rfl⟩)))

/-- Settles O16: case by case of `execMerge_next`. -/
theorem mergeDoesOneMergeStep : Obligations.MergeDoesOneMergeStep := by
  unfold Obligations.MergeDoesOneMergeStep
  refine ⟨(decode_eq_ok_iff_encode _ _).2 rfl, fun s hr h0 => execMerge_next.2 (.inr (.inl ⟨hr, h0, rfl⟩)),
    fun s hr h1 => execMerge_next.2 (.inr (.inr (.inl ⟨hr, h1, rfl⟩))),
    fun s h hr h2 => ⟨h.nnodes_le_of_two h2, ?merges⟩⟩
  case merges =>
    obtain ⟨u, hu⟩ : ∃ u, mergeStep s = .ok u := h.mergeStepWith_runs h2 _ _ _
    obtain ⟨a, b, na, nb, ha, hb, hna, hnb, rfl⟩ := mergeStep_ok hu
    exact ⟨a, b, na, nb, _, ha, hb, hna, hnb, execMerge_of_mergeStep hr h2 hu (read_write_same ..), rfl⟩

/-- Settles O17: case by case of `execReduce_next`. -/
theorem reduceIsAcceptedOrRaisesEmptyInput : Obligations.ReduceIsAcceptedOrRaisesEmptyInput := by
  unfold Obligations.ReduceIsAcceptedOrRaisesEmptyInput
  exact ⟨(decode_eq_ok_iff_encode _ _).2 rfl, fun s hr => ⟨fun h0 => execReduce_next.2 (.inr (.inl ⟨hr, h0, rfl⟩)),
    fun h1 => execReduce_next.2 (.inr (.inr ⟨hr, h1, rfl⟩))⟩⟩

/-! ## Frames -/

/-- A merge step leaves every record but the one at `allocIndex` (20_memory.md R56). -/
theorem mergeStep_read {s t : State} (h : mergeStep s = .ok t) :
    ∀ a, a ≠ allocIndex s → t.node.read a = s.node.read a := by
  obtain ⟨l, r, x, e⟩ := mergeStep_node h
  exact fun a ha => e ▸ read_write_ne _ _ ha

/-- Settles O42: MERGE is held, raises or merges; a `Work` step merges or finishes. -/
theorem mergeAndWorkFrame : Obligations.MergeAndWorkFrame := by
  unfold Obligations.MergeAndWorkFrame
  refine ⟨fun s t h => ?merge, fun s t h hcount => ?merging, fun s t h hcount => ?finishing⟩
  case merge =>
    rcases exec_next h with ⟨-, rfl⟩ | ⟨-, hx⟩
    · exact ⟨rfl, fun _ _ => rfl, .inr ⟨rfl, fun _ => .inl⟩⟩
    · cases hx with
      | raised hi e => exact ⟨rfl, fun _ _ => rfl, .inl ⟨e, rfl⟩⟩
      | merged u n hcount hmerge hn =>
        have hread := mergeStep_read hmerge
        refine ⟨?_, hread, .inr ⟨?_, fun r hrsp => .inr ?_⟩⟩
        · rw [mergeStep_frame hmerge]; rfl
        · rw [mergeStep_frame hmerge]; rfl
        · cases hrsp
          exact rcOf_rxWord _ _
  case merging =>
    rcases work_next.1 h with ⟨-, hmerge⟩ | ⟨hle, -⟩
    · exact ⟨mergeStep_frame hmerge ▸ rfl, mergeStep_read hmerge⟩
    · omega
  case finishing =>
    rcases work_next.1 h with ⟨hlt, -⟩ | ⟨-, r, n, -, -, rfl⟩
    · omega
    · exact ⟨rfl, fun _ => rfl⟩

end Sys2Proof.Machine
end

section
/-! Runs: every state that meets the invariant has a next state, and a REDUCE merges down to one tree and finishes
(41_reduction.md R125, R126, R128; 70_reset_and_hazards.md R203, R206). -/

namespace Sys2Proof.Machine

/-! ## No step stops the machine -/

/-- A block that is not ready holds the command (70_reset_and_hazards.md R204). -/
theorem exec_held {s : State} (hr : cmdReady s = false) (i : Instr) : exec i s = .next s := by
  cases i with
  | clear => exact execClear_next.2 (.inl ⟨hr, rfl⟩)
  | push b x => exact execPush_next.2 (.inl ⟨hr, rfl⟩)
  | merge => exact execMerge_next.2 (.inl ⟨hr, rfl⟩)
  | reduce => exact execReduce_next.2 (.inl ⟨hr, rfl⟩)
  | rdnode k => exact execRdnode_next.2 (.inl ⟨hr, rfl⟩)
  | rdstat => exact execRdstat_next.2 (.inl ⟨hr, rfl⟩)

/-- Every command runs (R171: an error is a response). -/
theorem StateInv.exec_runs {s : State} (h : StateInv s) (i : Instr) : ∃ t, exec i s = .next t := by
  cases hr : cmdReady s with
  | false => exact ⟨s, exec_held hr i⟩
  | true =>
    cases i with
    | clear => exact ⟨_, execClear_next.2 (.inr ⟨hr, rfl⟩)⟩
    | push b x =>
      by_cases hleaf : s.nleaf = 256
      · exact ⟨_, execPush_next.2 (.inr (.inl ⟨hr, hleaf, rfl⟩))⟩
      · have hfree := h.nnodes_le_of_not_full hleaf
        rcases Nat.lt_or_ge 4294967295 (s.total.toNat + x.toNat) with hover | hfit
        · exact ⟨_, execPush_next.2 (.inr (.inr (.inl ⟨hr, hleaf, hover, rfl⟩)))⟩
        · exact ⟨_, execPush_next.2 (.inr (.inr (.inr ⟨hr, hleaf, hfit, by omega, rfl⟩)))⟩
    | merge =>
      by_cases h0 : s.count = 0
      · exact ⟨_, execMerge_next.2 (.inr (.inl ⟨hr, h0, rfl⟩))⟩
      by_cases h1 : s.count = 1
      · exact ⟨_, execMerge_next.2 (.inr (.inr (.inl ⟨hr, h1, rfl⟩)))⟩
      have h2 : 2 ≤ s.count := by omega
      obtain ⟨u, hu⟩ : ∃ u, mergeStep s = .ok u := h.mergeStepWith_runs h2 _ _ _
      obtain ⟨a, b, x, e⟩ := mergeStep_node hu
      exact ⟨_, execMerge_of_mergeStep hr h2 hu (e ▸ read_write_same ..)⟩
    | reduce =>
      rcases Nat.eq_zero_or_pos s.count with h0 | h1
      · exact ⟨_, execReduce_next.2 (.inr (.inl ⟨hr, h0, rfl⟩))⟩
      · exact ⟨_, execReduce_next.2 (.inr (.inr ⟨hr, h1, rfl⟩))⟩
    | rdnode k =>
      rcases Nat.lt_or_ge k.toNat s.nnodes with hlt | hbad
      · obtain ⟨n, hn⟩ := Option.isSome_iff_exists.1 ((h.stored _).2 hlt)
        exact ⟨_, execRdnode_next.2 (.inr (.inr ⟨hr, hlt, n, hn, rfl⟩))⟩
      · exact ⟨_, execRdnode_next.2 (.inr (.inl ⟨hr, hbad, rfl⟩))⟩
    | rdstat => exact ⟨_, execRdstat_next.2 (.inr ⟨hr, rfl⟩)⟩

/-- With one tree the finishing `Work` step runs: the one root, the last node made (10_state.md R34 V11), is the result
(R206). -/
theorem StateInv.work_finishes {s : State} (h : StateInv s) (h1 : s.count = 1) :
    ∃ n, s.q = [s.nnodes - 1] ∧ s.node.read (s.nnodes - 1) = some n ∧
      work s = .next (finishedState (s.nnodes - 1) n s) := by
  have hq := h.v11 h1
  obtain ⟨n, hn⟩ := Option.isSome_iff_exists.1 (h.queue_isSome (s.nnodes - 1) (by simp [hq]))
  exact ⟨n, hq, hn, work_next.2 (.inr ⟨h1.le, _, n, hq, hn, rfl⟩)⟩

/-- On a forest that is not empty a `Work` step runs (R206). -/
theorem StateInv.work_runs {s : State} (h : StateInv s) (h1 : 1 ≤ s.count) : ∃ t, work s = .next t := by
  rcases h1.eq_or_lt with h1 | h2
  · obtain ⟨n, -, -, hw⟩ := h.work_finishes h1.symm
    exact ⟨_, hw⟩
  · obtain ⟨t, ht⟩ : ∃ t, mergeStep s = .ok t := h.mergeStepWith_runs h2 _ _ _
    exact ⟨t, work_next.2 (.inl ⟨h2, ht⟩)⟩

/-- The engine's step runs: a BUSY block has a tree (V9). -/
theorem StateInv.engineTurn_runs {s : State} (h : StateInv s) : ∃ t, engineTurn s = .next t := by
  cases hp : s.phase with
  | idle => exact ⟨s, engineTurn_next.2 (.inl ⟨hp, rfl⟩)⟩
  | busy =>
    obtain ⟨t, ht⟩ := h.work_runs (h.v9 hp).2
    exact ⟨t, engineTurn_next.2 (.inr ⟨hp, ht⟩)⟩

/-- An offered word is executed, or raises IllegalCommand (R180). -/
theorem StateInv.issue_runs {s : State} (h : StateInv s) (w : Word) : ∃ t, issue w s = .next t := by
  unfold issue
  split
  · exact h.exec_runs _
  · exact ⟨_, rfl⟩

/-- The host's moves play no part in the invariant. -/
theorem StateInv.with_host {s : State} (h : StateInv s) (moves : List HostMove) : StateInv { s with host := moves } :=
  h.of_sameBlock rfl

/-- Settles O5: move by move of the host. -/
theorem noStepStopsTheMachine : Obligations.NoStepStopsTheMachine := by
  unfold Obligations.NoStepStopsTheMachine
  intro s h
  unfold Runs step turn
  split
  · exact h.engineTurn_runs
  · exact ⟨_, rfl⟩
  · exact (h.with_host _).engineTurn_runs
  · split
    · exact ⟨_, rfl⟩
    · exact h.engineTurn_runs
  · split
    · exact (h.with_host _).issue_runs _
    · exact h.engineTurn_runs

/-! ## A REDUCE in progress -/

theorem engineTurn_busy {s : State} (hp : s.phase = .busy) : engineTurn s = work s := by simp [engineTurn, hp]

/-- A host that plans no reset leaves a BUSY block its `Work` step (R206, R208), using up at most moves of its own. -/
theorem step_busy {s : State} (hp : s.phase = .busy) (hrsp : s.rsp = none) (hh : .reset ∉ s.host) :
    ∃ moves, .reset ∉ moves ∧ step s = work { s with host := moves } := by
  unfold step turn
  split
  · exact ⟨s.host, hh, engineTurn_busy hp⟩
  · next e => simp [e] at hh
  · next rest e => exact ⟨rest, by simpa [e] using hh, engineTurn_busy hp⟩
  · exact ⟨s.host, hh, (if_neg (by simp [rspValid, hrsp])).trans (engineTurn_busy hp)⟩
  · exact ⟨s.host, hh, (if_neg (by simp [cmdReady, hp])).trans (engineTurn_busy hp)⟩

/-- `u` is the block `k` merge steps after the BUSY block `s`, BUSY still. -/
structure Reducing (k : Nat) (s u : State) : Prop where
  chain : MergeChain k s u
  inv : StateInv u
  busy : u.phase = .busy
  noReset : .reset ∉ u.host
  count : u.count = s.count - k
  nnodes : u.nnodes = s.nnodes + k
  total : u.total = s.total

/-- A BUSY block of `n` trees merges in each of its first `n - 1` steps (R126). -/
theorem runs_reducing {s : State} (h : StateInv s) (hp : s.phase = .busy) (hh : .reset ∉ s.host) {k : Nat}
    (hk : k < s.count) : ∃ u, runs k s = .next u ∧ Reducing k s u := by
  induction k generalizing s with
  | zero => exact ⟨s, rfl, .done rfl, h, hp, hh, rfl, rfl, rfl⟩
  | succ k ih =>
    obtain ⟨moves, hmoves, hs⟩ := step_busy hp (h.v9 hp).1 hh
    obtain ⟨t, ht⟩ : ∃ t, mergeStep { s with host := moves } = .ok t :=
      (h.with_host moves).mergeStepWith_runs (by dsimp only; omega) _ _ _
    have hst : step s = .next t := hs.trans (work_next.2 (.inl ⟨by dsimp only; omega, ht⟩))
    have hrel : MergeRel { s with host := moves } t := mergeStepWith_rel ht
    have hinv := h.stepped hst
    have hframe := mergeStep_frame ht
    have hcount : t.count = s.count - 1 := by rw [hframe]
    have hnnodes : t.nnodes = s.nnodes + 1 := by rw [hframe]
    have htotal : t.total = s.total := by rw [hframe]
    obtain ⟨u, hu, hred⟩ := ih hinv (by rw [hframe]; exact hp) (by rw [hframe]; exact hmoves) (by omega)
    refine ⟨u, by rw [runs, hst]; exact hu, .more hrel hred.chain, hred.inv, hred.busy, hred.noReset, ?_, ?_, ?_⟩
    · rw [hred.count]; omega
    · rw [hred.nnodes]; omega
    · rw [hred.total, htotal]

/-- A run goes on from where it has come to. -/
theorem runs_add {k : Nat} {s u : State} (h : runs k s = .next u) (j : Nat) : runs (k + j) s = runs j u := by
  induction k generalizing s with
  | zero => cases h; rw [Nat.zero_add]
  | succ k ih =>
    rw [runs] at h
    rw [Nat.succ_add, runs]
    cases hs : step s with
    | next t => rw [hs] at h; exact ih h
    | fault f => rw [hs] at h; cases h
    | refused r => rw [hs] at h; cases h

/-- A BUSY block of `n` trees has after `n - 1` merge steps one tree, and the `n`-th step finishes on it (R126, R206). -/
theorem runs_finish {s : State} (h : StateInv s) (hp : s.phase = .busy) (hh : .reset ∉ s.host) :
    ∃ u n moves, Reducing (s.count - 1) s u ∧ u.q = [u.nnodes - 1] ∧ u.node.read (u.nnodes - 1) = some n ∧
      runs s.count s = .next (finishedState (u.nnodes - 1) n { u with host := moves }) := by
  have hpos := (h.v9 hp).2
  obtain ⟨u, hu, hred⟩ := runs_reducing h hp hh (k := s.count - 1) (by omega)
  obtain ⟨moves, -, hs⟩ := step_busy hred.busy (hred.inv.v9 hred.busy).1 hred.noReset
  have hone : u.count = 1 := by rw [hred.count]; omega
  obtain ⟨n, hq, hn, hw⟩ := (hred.inv.with_host moves).work_finishes hone
  refine ⟨u, n, moves, hred, hq, hn, ?_⟩
  have hrun := runs_add hu 1
  rw [Nat.sub_add_cancel hpos] at hrun
  rw [hrun, runs, hs, hw]
  rfl

/-- A block that accepts a REDUCE and is then BUSY (R204). -/
theorem StateInv.accepted {s : State} (h : StateInv s) (hr : cmdReady s = true) (h1 : 1 ≤ s.count) :
    StateInv { s with phase := .busy } :=
  (ExecCase.accepted h1).keeps_inv h hr

/-- Settles O27: `runs_reducing` and `runs_finish` from the accepted REDUCE; the root weighs what all roots weighed (V6). -/
theorem reduceFinishesAfterCountSteps : Obligations.ReduceFinishesAfterCountSteps := by
  unfold Obligations.ReduceFinishesAfterCountSteps
  intro s h hr h1 hh
  have hb := h.accepted hr h1
  have hmax := h.v3_count
  refine ⟨by omega, _, execReduce_next.2 (.inr (.inr ⟨hr, h1, rfl⟩)), fun k hk => ?merging, ?finish⟩
  case merging =>
    obtain ⟨u, hu, hred⟩ := runs_reducing hb rfl hh hk
    exact ⟨u, hu, hred.busy, (hred.inv.v9 hred.busy).1, hred.count, hred.nnodes⟩
  case finish =>
    obtain ⟨u, n, moves, hred, hq, hn, hrun⟩ := runs_finish hb rfl hh
    have hcount : u.count = 1 := by rw [hred.count]; exact Nat.sub_sub_self h1
    have hroot : u.nnodes - 1 = s.nnodes + s.count - 2 := by rw [hred.nnodes]; dsimp only; omega
    have hweight : n.weight = u.total := by
      have hsum := hred.inv.v6_queue
      rw [hq, List.map_singleton, List.sum_singleton, weightAt_of_read hn] at hsum
      exact BitVec.eq_of_toNat_eq hsum
    exact ⟨_, n, hrun, rfl, hcount, rfl, hroot, hq, hn, hweight, hred.total, rfl⟩

/-! ## REDUCE as one step -/

/-- A merge step does not look at `PHASE` (R123). -/
theorem MergeRel.with_phase {s t : State} (h : MergeRel s t) (p : Phase) :
    MergeRel { s with phase := p } { t with phase := p } := by
  obtain ⟨a, b, na, nb, ha, hb, hna, hnb, e⟩ := h
  refine ⟨a, b, na, nb, ha, hb, hna, hnb, ?_⟩
  simp only [sameBlock_iff] at e ⊢
  simp_all

theorem MergeChain.with_phase {k : Nat} {s t : State} (h : MergeChain k s t) (p : Phase) :
    MergeChain k { s with phase := p } { t with phase := p } := by
  induction h with
  | done e => exact .done (by simp only [sameBlock_iff] at e ⊢; simp_all)
  | more hrel _ ih => exact .more (hrel.with_phase p) ih

/-- Settles O28: the merge steps of the run, seen as steps of the idle block, and the finish, which leaves it idle. -/
theorem reduceIsAtomicToTheHost : Obligations.ReduceIsAtomicToTheHost := by
  unfold Obligations.ReduceIsAtomicToTheHost
  intro s h hr h1 hh
  have hb := h.accepted hr h1
  refine ⟨execReduce_next.2 (.inr (.inr ⟨hr, h1, rfl⟩)), fun k hk => ?merging, ?finish⟩
  case merging =>
    obtain ⟨v, hv, hred⟩ := runs_reducing hb rfl hh hk
    exact ⟨v, hv, by simp [cmdReady, hred.busy], (hred.inv.v9 hred.busy).1, resetBlock_sameBlock v⟩
  case finish =>
    obtain ⟨u, n, moves, hred, hq, hn, hrun⟩ := runs_finish hb rfl hh
    have hchain := hred.chain.with_phase s.phase
    exact ⟨_, _, n, _, hchain, hq, hn, hrun, rfl⟩

end Sys2Proof.Machine
end

section
/-! The trees in the store (41_reduction.md R127, R129): the nodes, leaves and codes under a node counted, every record under
the one root of a result, and the weighted path length. -/

namespace Sys2Proof.Machine

/-! ## Counting what lies under a node -/

/-- A tree of `n` leaves has `2 * n - 1` nodes. -/
theorem StateInv.nodesUnder_length {s : State} (h : StateInv s) : ∀ i < s.nnodes,
    (nodesUnder s.node i).length + 1 = 2 * (leavesUnder s.node i).length := by
  refine h.tree_induction (fun i b w hr => ?_) (fun i l r w hr ihl ihr => ?_)
  · simp [nodesUnder_leaf hr, leavesUnder_leaf hr]
  · rw [nodesUnder_internal h.v5 hr, leavesUnder_internal h.v5 hr, List.length_cons, List.length_append,
      List.length_append]
    omega

/-- There is a leaf under every node. -/
theorem StateInv.leavesUnder_length_pos {s : State} (h : StateInv s) {i : Nat} (hi : i < s.nnodes) :
    1 ≤ (leavesUnder s.node i).length := by
  have := h.nodesUnder_length i hi
  omega

/-- Under an Internal node there are two leaves or more, under a Leaf there is one. -/
theorem StateInv.two_le_leavesUnder_iff {s : State} (h : StateInv s) {i : Nat} (hi : i < s.nnodes) :
    (∃ l r w, s.node.read i = some (.internal l r w)) ↔ 2 ≤ (leavesUnder s.node i).length := by
  obtain ⟨n, hn⟩ := Option.isSome_iff_exists.1 ((h.stored i).2 hi)
  cases n with
  | leaf b w => simp [hn, leavesUnder_leaf hn]
  | internal l r w =>
    obtain ⟨hl, hr⟩ := h.v5 i l r w hn
    have hlpos := h.leavesUnder_length_pos (i := l) (by omega)
    have hrpos := h.leavesUnder_length_pos (i := r) (by omega)
    rw [leavesUnder_internal h.v5 hn, List.length_append]
    exact iff_of_true ⟨l, r, w, hn⟩ (by omega)

/-- A code is shorter than the number of leaves under the node: each bit leaves a leaf on the other side. -/
theorem StateInv.code_length_lt {s : State} (h : StateInv s) : ∀ i < s.nnodes,
    ∀ e ∈ codes s.node i, e.code.length < (leavesUnder s.node i).length := by
  refine h.tree_induction (fun i b w hr => ?_) (fun i l r w hr ihl ihr => ?_)
  · simp [codes_leaf hr, leavesUnder_leaf hr]
  · have hi := h.read_lt hr
    obtain ⟨hl, hr'⟩ := h.v5 i l r w hr
    have hlpos := h.leavesUnder_length_pos (i := l) (by omega)
    have hrpos := h.leavesUnder_length_pos (i := r) (by omega)
    intro e he
    rw [codes_internal h.v5 hr, List.mem_append, List.mem_map, List.mem_map] at he
    rw [leavesUnder_internal h.v5 hr, List.length_append]
    rcases he with ⟨d, hd, rfl⟩ | ⟨d, hd, rfl⟩
    · have := ihl d hd
      rw [List.length_cons]; omega
    · have := ihr d hd
      rw [List.length_cons]; omega

theorem StateInv.nodesUnder_lt {s : State} (h : StateInv s) : ∀ i < s.nnodes, ∀ j ∈ nodesUnder s.node i, j < s.nnodes := by
  refine h.tree_induction (fun i b w hr => ?_) (fun i l r w hr ihl ihr => ?_)
  · simpa [nodesUnder_leaf hr] using h.read_lt hr
  · rw [nodesUnder_internal h.v5 hr]
    simp only [List.mem_cons, List.mem_append]
    rintro j (rfl | hj | hj)
    · exact h.read_lt hr
    · exact ihl j hj
    · exact ihr j hj

/-- A node in use is under itself. -/
theorem StateInv.mem_nodesUnder_self {s : State} (h : StateInv s) {i : Nat} (hi : i < s.nnodes) :
    i ∈ nodesUnder s.node i := by
  obtain ⟨n, hn⟩ := Option.isSome_iff_exists.1 ((h.stored i).2 hi)
  cases n with
  | leaf b w => simp [nodesUnder_leaf hn]
  | internal l r w => simp [nodesUnder_internal h.v5 hn]

/-- A child of a node under `i` is under `i`. -/
theorem StateInv.child_mem_nodesUnder {s : State} (h : StateInv s) {k j : Nat} (hpar : IsParent s.node k j) : ∀ i < s.nnodes,
    k ∈ nodesUnder s.node i → j ∈ nodesUnder s.node i := by
  obtain ⟨l, r, w, hk, hj⟩ := hpar
  have hkn := h.read_lt hk
  obtain ⟨hl, hr⟩ := h.v5 k l r w hk
  have hself : j ∈ nodesUnder s.node k := by
    have hlself := h.mem_nodesUnder_self (i := l) (by omega)
    have hrself := h.mem_nodesUnder_self (i := r) (by omega)
    rw [nodesUnder_internal h.v5 hk]
    rcases hj with rfl | rfl <;> simp [hlself, hrself]
  refine h.tree_induction (fun i b x hi => ?_) (fun i l' r' x hi ihl ihr => ?_)
  · rw [nodesUnder_leaf hi, List.mem_singleton]
    rintro rfl
    simp [hk] at hi
  · intro hmem
    rw [nodesUnder_internal h.v5 hi, List.mem_cons, List.mem_append] at hmem
    rcases hmem with rfl | hmem | hmem
    · exact hself
    · rw [nodesUnder_internal h.v5 hi]; simp [ihl hmem]
    · rw [nodesUnder_internal h.v5 hi]; simp [ihr hmem]

/-! ## One tree -/

/-- Under the one root lie all the leaves (10_state.md R34 V10). -/
theorem StateInv.leavesUnder_root {s : State} (h : StateInv s) {i : Nat} (hq : s.q = [i]) :
    (leavesUnder s.node i).Perm (leafIndices s.node) := by
  simpa [hq] using h.v10

/-- Under the one root lies every record in use: every other record has a parent (V4), which is younger (V5). -/
theorem StateInv.mem_nodesUnder_root {s : State} (h : StateInv s) {i : Nat} (hq : s.q = [i]) {j : Nat} (hj : j < s.nnodes) :
    j ∈ nodesUnder s.node i := by
  have hi : i < s.nnodes := h.v1_members i (by simp [hq])
  induction hd : s.nnodes - j using Nat.strong_induction_on generalizing j with
  | _ d ih =>
    rcases h.v4_owned j hj with ⟨hroot, -⟩ | ⟨-, k, hpar, -⟩
    · obtain rfl : j = i := by simpa [hq] using hroot
      exact h.mem_nodesUnder_self hj
    · obtain ⟨l, r, w, hk, hc⟩ := hpar
      have hkn := h.read_lt hk
      obtain ⟨hl, hr⟩ := h.v5 k l r w hk
      exact h.child_mem_nodesUnder ⟨l, r, w, hk, hc⟩ i hi (ih (s.nnodes - k) (by omega) hkn rfl)

/-- R127: the walk from the one root meets every record, and by the count of nodes in a tree it meets each once. -/
theorem StateInv.nodesUnder_root {s : State} (h : StateInv s) {i : Nat} (hq : s.q = [i]) :
    (nodesUnder s.node i).Perm (List.range s.nnodes) := by
  have hi : i < s.nnodes := h.v1_members i (by simp [hq])
  have hall : List.range s.nnodes ⊆ nodesUnder s.node i := fun j hj =>
    h.mem_nodesUnder_root hq (List.mem_range.1 hj)
  have hlength := h.nodesUnder_length i hi
  have hleaves := (h.leavesUnder_root hq).length_eq
  have hnleaf := h.leaves
  have hcount : s.count = 1 := by rw [h.v1_count, hq]; rfl
  have hsum := h.v2_count
  refine ((List.nodup_range.subperm hall).perm_of_length_le ?_).symm
  rw [List.length_range]
  omega

/-- Settles O44: with `RV` set the root is the one member of `Q` (V8), and all lies under it. -/
theorem resultIsOneTreeOverAllLeaves : Obligations.ResultIsOneTreeOverAllLeaves := by
  unfold Obligations.ResultIsOneTreeOverAllLeaves
  intro s h hrv
  obtain ⟨-, hq⟩ := h.v8 hrv
  have hroot : s.root < s.nnodes := h.v1_members _ (by simp [hq])
  have hleaves : (leavesUnder s.node s.root).length = s.nleaf := by rw [(h.leavesUnder_root hq).length_eq, h.leaves]
  refine ⟨h.nodesUnder_root hq, h.leavesUnder_root hq, fun i hi => ?weights, fun k l r w hk => ?children, ?total,
    ?internal, fun e he => ?depth, Nat.sub_le_of_le_add h.v3_nleaf⟩
  case weights => exact h.v6_under i (h.nodesUnder_lt _ hroot i hi)
  case children =>
    have hkn := h.read_lt hk
    obtain ⟨hl, hr⟩ := h.v5 k l r w hk
    exact ⟨h.v4_distinct k l r w hk, hl, hr, h.v7 k l r w hk, h.mem_nodesUnder_root hq (by omega),
      h.mem_nodesUnder_root hq (by omega)⟩
  case total => simpa [hq] using h.v6_queue
  case internal => rw [h.two_le_leavesUnder_iff hroot, hleaves]
  case depth => exact Nat.le_sub_one_of_lt (hleaves ▸ h.code_length_lt _ hroot e he)

/-! ## The weighted path length -/

/-- The weights of the codes under a node sum to its weight (R34 V6). -/
theorem StateInv.sum_code_weights {s : State} (h : StateInv s) : ∀ i < s.nnodes,
    ((codes s.node i).map fun e => e.weight.toNat).sum = weightAt s.node i := by
  refine h.tree_induction (fun i b w hr => ?_) (fun i l r w hr ihl ihr => ?_)
  · simp [codes_leaf hr, weightAt_of_read hr, Node.weight]
  · rw [codes_internal h.v5 hr, List.map_append, List.sum_append, List.map_map, List.map_map, weightAt_of_read hr]
    exact (congrArg₂ (· + ·) ihl ihr).trans (h.v6_sum i l r w hr).symm

/-- One bit put before every code adds the weights once. -/
theorem sum_weight_mul_length_cons (x : Bool) (L : List CodeEntry) :
    ((L.map fun e => { e with code := x :: e.code }).map fun e => e.weight.toNat * e.code.length).sum =
      (L.map fun e => e.weight.toNat * e.code.length).sum + (L.map fun e => e.weight.toNat).sum := by
  rw [List.map_map, ← List.sum_map_add]
  rfl

/-- R129 at an Internal node: its subtrees' path lengths, and its own weight, since every leaf under it is one deeper. -/
theorem StateInv.weightedPathLength_internal {s : State} (h : StateInv s) {i l r : Nat} {w : Weight}
    (hr : s.node.read i = some (.internal l r w)) :
    weightedPathLength s.node i = weightAt s.node i + (weightedPathLength s.node l + weightedPathLength s.node r) := by
  have hi := h.read_lt hr
  obtain ⟨hl, hr'⟩ := h.v5 i l r w hr
  unfold weightedPathLength
  rw [codes_internal h.v5 hr, List.map_append, List.sum_append, sum_weight_mul_length_cons, sum_weight_mul_length_cons,
    h.sum_code_weights l (by omega), h.sum_code_weights r (by omega), weightAt_of_read hr]
  have hsum := h.v6_sum i l r w hr
  simp only [Node.weight]
  omega

theorem StateInv.weightedPathLength_eq {s : State} (h : StateInv s) : ∀ i < s.nnodes, weightedPathLength s.node i =
    (((nodesUnder s.node i).filter fun k => k ∈ internalIndices s.node).map (weightAt s.node)).sum := by
  refine h.tree_induction (fun i b w hr => ?_) (fun i l r w hr ihl ihr => ?_)
  · have hleaf : i ∉ internalIndices s.node := by simp [mem_internalIndices h.memWf, hr]
    simp [weightedPathLength, codes_leaf hr, nodesUnder_leaf hr, hleaf]
  · have hint : i ∈ internalIndices s.node := (mem_internalIndices h.memWf i).2 ⟨l, r, w, hr⟩
    rw [h.weightedPathLength_internal hr, ihl, ihr, nodesUnder_internal h.v5 hr]
    simp [hint]

/-- The Internal records in use, picked out of all the records. -/
theorem StateInv.filter_range_internal {s : State} (h : StateInv s) :
    ((List.range s.nnodes).filter fun k => k ∈ internalIndices s.node).Perm (internalIndices s.node) := by
  have hnodup : (internalIndices s.node).Nodup := (wf_nodup h.memWf).sublist (List.filter_sublist.map _)
  refine (List.perm_ext_iff_of_nodup (List.nodup_range.filter _) hnodup).2 fun k => ?_
  rw [List.mem_filter, List.mem_range, decide_eq_true_iff, and_iff_right_iff_imp, mem_internalIndices h.memWf]
  rintro ⟨l, r, w, hk⟩
  exact h.read_lt hk

/-- Settles O46: induction over the tree; over a result the nodes under the root are all records in use. -/
theorem weightedPathLengthIsTheSumOfInternalWeights : Obligations.WeightedPathLengthIsTheSumOfInternalWeights := by
  unfold Obligations.WeightedPathLengthIsTheSumOfInternalWeights
  refine ⟨fun s i h => h.weightedPathLength_eq i, fun s h hrv => ?_⟩
  obtain ⟨-, hq⟩ := h.v8 hrv
  rw [h.weightedPathLength_eq _ (h.v1_members _ (by simp [hq]))]
  exact ((((h.nodesUnder_root hq).filter _).trans h.filter_range_internal).map _).sum_eq

end Sys2Proof.Machine
end

section
/-! What ties can change (41_reduction.md R129): two states that differ in no more than that still do after a merge step with
choices of its own, a command, or a `Work` step. -/

namespace Sys2Proof.Machine

/-! ## Records alike -/

/-- What a read finds in the store with its records cut down to what no tie can change. -/
theorem lookup_tieless (m : Memory) (i : Nat) :
    (m.map fun e => (e.1, e.2.tieless)).lookup i = (m.read i).map Node.tieless := by
  induction m with
  | nil => rfl
  | cons e rest ih =>
    obtain ⟨j, n⟩ := e
    rw [List.map_cons, List.lookup_cons, read_cons, ih]
    by_cases hij : i = j
    · simp [hij]
    · rw [if_neg hij, beq_false_of_ne hij]

theorem Node.weight_eq_of_tieless {n n' : Node} (h : n.tieless = n'.tieless) : n.weight = n'.weight := by
  cases n <;> cases n' <;> simp_all [Node.tieless, Node.weight]

theorem Node.tag_eq_of_tieless {n n' : Node} (h : n.tieless = n'.tieless) : n.tag = n'.tag := by
  cases n <;> cases n' <;> simp_all [Node.tieless, Node.tag]

/-- RX answers the tag and the weight, not the children (30_encoding.md R76). -/
theorem rxWord_eq_of_tieless (i : Nat) {n n' : Node} (h : n.tieless = n'.tieless) : rxWord i n = rxWord i n' := by
  rw [rxWord, rxWord, Node.tag_eq_of_tieless h, Node.weight_eq_of_tieless h]

/-- All of a Leaf is beyond the ties. -/
theorem Node.eq_leaf_of_tieless {n : Node} {b : Byte} {w : Weight} (h : n.tieless = (Node.leaf b w).tieless) :
    n = .leaf b w := by
  cases n <;> simp_all [Node.tieless]

theorem SameUpToTies.read_alike {s s' : State} (h : SameUpToTies s s') {i : Nat} {n : Node} (hn : s.node.read i = some n) :
    ∃ n', s'.node.read i = some n' ∧ n.tieless = n'.tieless := by
  have hlookup := lookup_tieless s'.node i
  rw [← h.records, lookup_tieless, hn, Option.map_some, eq_comm, Option.map_eq_some_iff] at hlookup
  obtain ⟨n', hn', e⟩ := hlookup
  exact ⟨n', hn', e.symm⟩

/-! ## What leaves the trees alone -/

theorem SameUpToTies.cmdReady_eq {s s' : State} (h : SameUpToTies s s') : cmdReady s' = cmdReady s := by
  rw [cmdReady, cmdReady, h.phase, h.rsp]

/-- The status word shows nothing that ties can change (R76). -/
theorem SameUpToTies.rsWord_eq {s s' : State} (h : SameUpToTies s s') : rsWord s = rsWord s' := by
  rw [rsWord, rsWord, h.fault, h.rv, h.root, h.nnodes, h.nleaf, h.count]

theorem SameUpToTies.responded {s s' : State} (h : SameUpToTies s s') (w : Word) :
    SameUpToTies (respond w s) (respond w s') := { h with rsp := rfl }

theorem SameUpToTies.raised {s s' : State} (h : SameUpToTies s s') (e : Error) :
    SameUpToTies (raise e s) (raise e s') := { h with fault := congrArg (setFault e) h.fault, rsp := rfl }

theorem SameUpToTies.cleared {s s' : State} (h : SameUpToTies s s') : SameUpToTies (clearAll s) (clearAll s') where
  records := rfl
  queue := .nil
  nnodes := rfl
  nleaf := rfl
  count := rfl
  total := rfl
  root := rfl
  rv := rfl
  fault := rfl
  phase := h.phase
  rsp := h.rsp

/-- The same result reported (70_reset_and_hazards.md R206). -/
theorem SameUpToTies.finished {s s' : State} (h : SameUpToTies s s') (r : Nat) {n n' : Node} (hn : n.tieless = n'.tieless) :
    SameUpToTies (finishedState r n s) (finishedState r n' s') :=
  { h with root := rfl, rv := rfl, phase := rfl, rsp := congrArg some (rxWord_eq_of_tieless r hn) }

/-! ## A new node -/

/-- The new record is the last of the store. -/
theorem StateInv.map_tieless_write {s : State} (h : StateInv s) (n : Node) :
    (s.node.write s.nnodes n).map (fun e => (e.1, e.2.tieless)) =
      s.node.map (fun e => (e.1, e.2.tieless)) ++ [(s.nnodes, n.tieless)] := by
  rw [write_above n h.listed_lt, List.map_append]
  rfl

/-- The new node is the last root of all. -/
theorem map_weightAt_qInsert {m : Memory} {S : List Nat} {k : Nat} (hS : ∀ i ∈ S, i < k) (n : Node) :
    (qInsert k S).map (weightAt (m.write k n)) = S.map (weightAt m) ++ [n.weight.toNat] := by
  rw [qInsert_above hS, List.map_append, map_weight_write n hS, List.map_singleton, weightAt_of_read (read_write_same ..)]

section
variable {s s' : State} (hs : StateInv s) (hs' : StateInv s') (h : SameUpToTies s s')
include hs hs' h

theorem SameUpToTies.records_write {n n' : Node} (hn : n.tieless = n'.tieless) :
    (s.node.write s.nnodes n).map (fun e => (e.1, e.2.tieless)) =
      (s'.node.write s'.nnodes n').map fun e => (e.1, e.2.tieless) := by
  rw [hs.map_tieless_write, hs'.map_tieless_write, h.records, h.nnodes, hn]

/-- A leaf of one weight and byte enters both forests (40_forest_load.md R101). -/
theorem SameUpToTies.pushed (b : Byte) (x : Weight) : SameUpToTies (pushedState b x s) (pushedState b x s') where
  records := h.records_write hs hs' rfl
  queue := by
    simp only [pushedState, map_weightAt_qInsert hs.v1_members, map_weightAt_qInsert hs'.v1_members]
    exact h.queue.append_right _
  nnodes := congrArg (· + 1) h.nnodes
  nleaf := congrArg (· + 1) h.nleaf
  count := congrArg (· + 1) h.count
  total := congrArg (· + x) h.total
  root := h.root
  rv := rfl
  fault := h.fault
  phase := h.phase
  rsp := congrArg (fun k => some (rxWord k (.leaf b x))) h.nnodes

end

/-! ## The merge step -/

/-- From two sets with one multiset of weights, least members of one weight are extracted, and the sets left have one multiset
of weights again. -/
theorem MinOf.weights_of_perm {m m' : Memory} {S S' : List Nat} (nd : S.Nodup) (nd' : S'.Nodup) {a a' : Nat}
    (ha : MinOf m S a) (ha' : MinOf m' S' a') (hp : (S.map (weightAt m)).Perm (S'.map (weightAt m'))) :
    weightAt m a = weightAt m' a' ∧ ((qRemove a S).map (weightAt m)).Perm ((qRemove a' S').map (weightAt m')) := by
  obtain ⟨haS, hle⟩ := ha.weight_le
  obtain ⟨haS', hle'⟩ := ha'.weight_le
  have heq : weightAt m a = weightAt m' a' := by
    obtain ⟨j, hj, ej⟩ := List.mem_map.1 (hp.mem_iff.2 (List.mem_map_of_mem haS'))
    obtain ⟨j', hj', ej'⟩ := List.mem_map.1 (hp.mem_iff.1 (List.mem_map_of_mem haS))
    exact le_antisymm (ej ▸ hle j hj) (ej' ▸ hle' j' hj')
  refine ⟨heq, (List.perm_cons (weightAt m a)).1 ?_⟩
  calc (weightAt m a :: (qRemove a S).map (weightAt m)).Perm (S.map (weightAt m)) := (cons_qRemove_perm nd haS).map _
    List.Perm _ (S'.map (weightAt m')) := hp
    List.Perm _ (weightAt m' a' :: (qRemove a' S').map (weightAt m')) := (cons_qRemove_perm nd' haS').symm.map _
    List.Perm _ (weightAt m a :: (qRemove a' S').map (weightAt m')) := .of_eq (by rw [heq])

section
variable {s s' : State} (hs : StateInv s) (hs' : StateInv s') (h : SameUpToTies s s')
include hs hs' h

/-- R129: merge steps under any policies and choices extract trees of the same weights, and so join them to one weight. -/
theorem SameUpToTies.merged {pol qol : TiePolicy} {c₁ c₂ d₁ d₂ : Nat} {t t' : State}
    (ht : mergeStepWith pol c₁ c₂ s = .ok t) (ht' : mergeStepWith qol d₁ d₂ s' = .ok t') : SameUpToTies t t' := by
  obtain ⟨a, b, na, nb, hxa, hxb, hna, hnb, -, rfl⟩ := mergeStepWith_ok ht
  obtain ⟨a', b', na', nb', hxa', hxb', hna', hnb', -, rfl⟩ := mergeStepWith_ok ht'
  have nd := qWf_nodup hs.queueWf
  have nd' := qWf_nodup hs'.queueWf
  obtain ⟨hwa, hrest⟩ := (extractMin_sound hxa).weights_of_perm nd nd' (extractMin_sound hxa') h.queue
  obtain ⟨hwb, hrest⟩ := (extractMin_sound hxb).weights_of_perm (qRemove_nodup nd a) (qRemove_nodup nd' a')
    (extractMin_sound hxb') hrest
  rw [weightAt_of_read hna, weightAt_of_read hna', BitVec.toNat_inj] at hwa
  rw [weightAt_of_read hnb, weightAt_of_read hnb', BitVec.toNat_inj] at hwb
  have hlt : ∀ i ∈ qRemove b (qRemove a s.q), i < s.nnodes := fun i hi => hs.v1_members i (by simp_all)
  have hlt' : ∀ i ∈ qRemove b' (qRemove a' s'.q), i < s'.nnodes := fun i hi => hs'.v1_members i (by simp_all)
  have hweight : na.weight + nb.weight = na'.weight + nb'.weight := by rw [hwa, hwb]
  exact {
    records := h.records_write hs hs' (congrArg (Prod.mk none) hweight)
    queue := by
      simp only [mergedFull, mergedState, map_weightAt_qInsert hlt, map_weightAt_qInsert hlt', hweight]
      exact hrest.append_right _
    nnodes := congrArg (· + 1) h.nnodes
    nleaf := h.nleaf
    count := congrArg (· - 1) h.count
    total := h.total
    root := h.root
    rv := h.rv
    fault := h.fault
    phase := h.phase
    rsp := h.rsp }

/-- Where one state merges, so does the other. -/
theorem SameUpToTies.mergeStep_alike (h2 : 2 ≤ s.count) {t : State} (ht : mergeStep s = .ok t) :
    ∃ t', mergeStep s' = .ok t' ∧ SameUpToTies t t' := by
  obtain ⟨t', ht'⟩ : ∃ t', mergeStep s' = .ok t' := hs'.mergeStepWith_runs (h.count ▸ h2) _ _ _
  exact ⟨t', ht', h.merged hs hs' ht ht'⟩

/-! ## Commands and `Work` -/

/-- What a command does to one state it does to the other, up to ties; RDNODE where it reads no Internal record. -/
theorem SameUpToTies.exec_alike {i : Instr} (hi : ∀ k l r w, i = .rdnode k → s.node.read k.toNat ≠ some (.internal l r w))
    {t : State} (hx : exec i s = .next t) : ∃ t', exec i s' = .next t' ∧ SameUpToTies t t' := by
  have hheld : cmdReady s = false → ∃ t', exec i s' = .next t' ∧ SameUpToTies s t' := fun hr =>
    ⟨s', exec_held (h.cmdReady_eq.trans hr) i, h⟩
  have hready : cmdReady s = true → cmdReady s' = true := h.cmdReady_eq.trans
  have hcount := h.count
  have hnnodes := h.nnodes
  cases i with
  | clear =>
    rcases execClear_next.1 hx with ⟨hr, rfl⟩ | ⟨hr, rfl⟩
    · exact hheld hr
    · refine ⟨_, execClear_next.2 (.inr ⟨hready hr, rfl⟩), ?_⟩
      rw [rsWord_clearAll, rsWord_clearAll]
      exact h.cleared.responded _
  | push b x =>
    have hnleaf := h.nleaf
    have htotal := congrArg BitVec.toNat h.total
    rcases execPush_next.1 hx with ⟨hr, rfl⟩ | ⟨hr, hfull, rfl⟩ | ⟨hr, hleaf, hover, rfl⟩ | ⟨hr, hleaf, hfit, hfree, rfl⟩
    · exact hheld hr
    · exact ⟨_, execPush_next.2 (.inr (.inl ⟨hready hr, by omega, rfl⟩)), h.raised _⟩
    · exact ⟨_, execPush_next.2 (.inr (.inr (.inl ⟨hready hr, by omega, by omega, rfl⟩))), h.raised _⟩
    · exact ⟨_, execPush_next.2 (.inr (.inr (.inr ⟨hready hr, by omega, by omega, by omega, rfl⟩))),
        h.pushed hs hs' b x⟩
  | merge =>
    rcases execMerge_next.1 hx with ⟨hr, rfl⟩ | ⟨hr, h0, rfl⟩ | ⟨hr, h1, rfl⟩ | ⟨hr, h2, u, n, hu, hn, rfl⟩
    · exact hheld hr
    · exact ⟨_, execMerge_next.2 (.inr (.inl ⟨hready hr, by omega, rfl⟩)), h.raised _⟩
    · exact ⟨_, execMerge_next.2 (.inr (.inr (.inl ⟨hready hr, by omega, rfl⟩))), h.raised _⟩
    · obtain ⟨u', hu', hsame⟩ := h.mergeStep_alike hs hs' h2 hu
      obtain ⟨n', hn', htieless⟩ := hsame.read_alike hn
      rw [hnnodes] at hn'
      refine ⟨_, execMerge_of_mergeStep (hready hr) (by omega) hu' hn', ?_⟩
      rw [rxWord_eq_of_tieless _ htieless, hnnodes]
      exact { hsame with rv := rfl, rsp := rfl }
  | reduce =>
    rcases execReduce_next.1 hx with ⟨hr, rfl⟩ | ⟨hr, h0, rfl⟩ | ⟨hr, h1, rfl⟩
    · exact hheld hr
    · exact ⟨_, execReduce_next.2 (.inr (.inl ⟨hready hr, by omega, rfl⟩)), h.raised _⟩
    · exact ⟨_, execReduce_next.2 (.inr (.inr ⟨hready hr, by omega, rfl⟩)), { h with phase := rfl }⟩
  | rdnode k =>
    rcases execRdnode_next.1 hx with ⟨hr, rfl⟩ | ⟨hr, hbad, rfl⟩ | ⟨hr, hlt, n, hn, rfl⟩
    · exact hheld hr
    · exact ⟨_, execRdnode_next.2 (.inr (.inl ⟨hready hr, by omega, rfl⟩)), h.raised _⟩
    · cases n with
      | internal l r w => exact absurd hn (hi k l r w rfl)
      | leaf b w =>
        obtain ⟨n', hn', htieless⟩ := h.read_alike hn
        obtain rfl := Node.eq_leaf_of_tieless htieless.symm
        exact ⟨_, execRdnode_next.2 (.inr (.inr ⟨hready hr, by omega, _, hn', rfl⟩)), h.responded _⟩
  | rdstat =>
    rcases execRdstat_next.1 hx with ⟨hr, rfl⟩ | ⟨hr, rfl⟩
    · exact hheld hr
    · refine ⟨_, execRdstat_next.2 (.inr ⟨hready hr, rfl⟩), ?_⟩
      rw [h.rsWord_eq]
      exact h.responded _

/-- What a `Work` step does to one state it does to the other, up to ties: the one root left is the last node in both (V11). -/
theorem SameUpToTies.work_alike (h1 : 1 ≤ s.count) {t : State} (hw : work s = .next t) :
    ∃ t', work s' = .next t' ∧ SameUpToTies t t' := by
  have hcount := h.count
  rcases work_next.1 hw with ⟨h2, ht⟩ | ⟨hle, r, n, hq, hn, rfl⟩
  · obtain ⟨t', ht', hsame⟩ := h.mergeStep_alike hs hs' h2 ht
    exact ⟨t', work_next.2 (.inl ⟨by omega, ht'⟩), hsame⟩
  · have hq' : s'.q = [r] := by rw [hs'.v11 (by omega), ← h.nnodes, ← hs.v11 (by omega), hq]
    obtain ⟨n', hn', htieless⟩ := h.read_alike hn
    exact ⟨_, work_next.2 (.inr ⟨by omega, r, n', hq', hn', rfl⟩), h.finished r htieless⟩

end

/-- Settles O47: both states take the step, and what one does the other does up to ties. -/
theorem tiesChangeOnlyTheShape : Obligations.TiesChangeOnlyTheShape := by
  unfold Obligations.TiesChangeOnlyTheShape
  refine ⟨fun pol c₁ c₂ qol d₁ d₂ s s' t t' hs hs' h ht ht' => h.merged hs hs' ht ht', fun i s s' hs hs' h hi => ?command,
    fun s s' hs hs' h h1 => ?work⟩
  case command =>
    obtain ⟨t, ht⟩ := hs.exec_runs i
    obtain ⟨t', ht', hsame⟩ := h.exec_alike hs hs' hi ht
    rw [ht, ht']
    exact hsame
  case work =>
    obtain ⟨t, ht⟩ := hs.work_runs h1
    obtain ⟨t', ht', hsame⟩ := h.work_alike hs hs' h1 ht
    rw [ht, ht']
    exact hsame

end Sys2Proof.Machine
end

section
/-! Reading the result (42_readout.md R150, R151): RDNODE and RDSTAT, and what they leave unchanged. -/

namespace Sys2Proof.Machine

/-- R75: the value of the word of RDNODE. -/
theorem decode_rdnode_iff (k : IdxField) (w : Word) :
    decode w = .ok (.rdnode k) ↔ w.toNat = 5 * 2 ^ 60 + k.toNat * 2 ^ 32 := by
  rw [decode_eq_ok_iff_encode, BitVec.toNat_eq, encode_rdnode_toNat, eq_comm]

/-- Settles O18: case by case of `execRdnode_next`. -/
theorem rdnodeAnswersTheRecord : Obligations.RdnodeAnswersTheRecord := by
  unfold Obligations.RdnodeAnswersTheRecord
  refine ⟨decode_rdnode_iff, fun k s hr => ⟨fun hbad => ?bad, fun n hlt hn => ?record, fun h hlt => ?stored⟩⟩
  case bad => exact execRdnode_next.2 (.inr (.inl ⟨hr, hbad, rfl⟩))
  case record => exact execRdnode_next.2 (.inr (.inr ⟨hr, hlt, n, hn, rfl⟩))
  case stored => exact Option.isSome_iff_exists.1 ((h.stored _).2 hlt)

/-- Settles O19: by `execRdstat_next`, and `rsWord_toNat` where each counter fits its field. -/
theorem rdstatAnswersTheStatusWord : Obligations.RdstatAnswersTheStatusWord := by
  unfold Obligations.RdstatAnswersTheStatusWord
  refine ⟨(decode_eq_ok_iff_encode _ _).2 rfl, fun s hr => ⟨execRdstat_next.2 (.inr ⟨hr, rfl⟩),
    fun hroot hnnodes hnleaf hcount => ?_⟩⟩
  rw [rsWord_toNat, zext12_toNat hroot, zext12_toNat hnnodes, zext12_toNat hnleaf, zext12_toNat hcount]

/-- Settles O40: a readout is held, raises or answers; RDNODE raises only where no record is in use. -/
theorem readoutFrame : Obligations.ReadoutFrame := by
  unfold Obligations.ReadoutFrame
  refine ⟨fun k s t h => ?rdnode, fun s t h => ?rdstat⟩
  case rdnode =>
    rcases execRdnode_next.1 h with ⟨-, rfl⟩ | ⟨-, hbad, rfl⟩ | ⟨-, -, n, -, rfl⟩
    · exact ⟨rfl, fun _ => rfl, fun _ => rfl⟩
    · exact ⟨rfl, fun _ => rfl, fun hlt => absurd hlt hbad.not_gt⟩
    · exact ⟨rfl, fun _ => rfl, fun _ => rfl⟩
  case rdstat =>
    rcases execRdstat_next.1 h with ⟨-, rfl⟩ | ⟨-, rfl⟩ <;> exact ⟨rfl, fun _ => rfl⟩

end Sys2Proof.Machine
end

section
/-! Errors (60_exceptions.md): which command raises which error and when (R170), and what an error leaves (R171). -/

namespace Sys2Proof.Machine

/-! ## Error words -/

/-- An error is known by its word (R76, R170). -/
theorem reWord_injective {e e' : Error} (h : reWord e = reWord e') : e = e' := by
  revert h
  cases e <;> cases e' <;> decide

/-- R171: the word of an error is its code in [63:60]. -/
theorem reWord_eq_ofNat (e : Error) : reWord e = BitVec.ofNat 64 (e.code.toNat * 2 ^ 60) := by
  rw [← reWord_toNat, BitVec.ofNat_toNat, BitVec.setWidth_eq]

theorem raise_injective {e e' : Error} {s s' : State} (h : raise e s = raise e' s') : e = e' :=
  reWord_injective (Option.some.inj (congrArg State.rsp h))

/-! ## Success -/

/-- `RSP` holds no error word: it is empty, as after an accepted REDUCE, or its `RC` is 0 (R77). -/
def Succeeds (t : State) : Prop := ∀ r, t.rsp = some r → rcOf r = 0#4

theorem succeeds_of_rsp_none {t : State} (h : t.rsp = none) : Succeeds t := by simp [Succeeds, h]

theorem succeeds_of_rsp {t : State} {r : Word} (h : t.rsp = some r) (hrc : rcOf r = 0#4) : Succeeds t := by
  simpa [Succeeds, h] using hrc

theorem Succeeds.rsp_ne_reWord {t : State} (h : Succeeds t) (e : Error) : t.rsp ≠ some (reWord e) := fun hrsp =>
  rcOf_reWord e (h _ hrsp)

/-- R170: a `Work` step leaves `RSP` or answers a success. -/
theorem work_rsp {s t : State} (hw : work s = .next t) : t.rsp = s.rsp ∨ Succeeds t := by
  rcases work_next.1 hw with ⟨-, hmerge⟩ | ⟨-, r, n, -, -, rfl⟩
  · rw [mergeStep_frame hmerge]; exact .inl rfl
  · exact .inr (succeeds_of_rsp rfl (rcOf_rxWord r n))

/-! ## Causes -/

/-- R170, R173: the table of errors, when the command raises the error in the state. -/
def ErrorCause (s : State) : Instr → Error → Prop
  | .clear, _ => False
  | .push _ x, e =>
    (e = .full ∧ s.nleaf = 256) ∨ (e = .weightOverflow ∧ s.nleaf ≠ 256 ∧ s.total.toNat + x.toNat > 2 ^ 32 - 1)
  | .merge, e => (e = .emptyInput ∧ s.count = 0) ∨ (e = .tooFew ∧ s.count = 1)
  | .reduce, e => e = .emptyInput ∧ s.count = 0
  | .rdnode k, e => e = .badIndex ∧ s.nnodes ≤ k.toNat
  | .rdstat, _ => False

/-- R180: IllegalCommand is the error of words that are no command. -/
theorem not_errorCause_illegalCommand (s : State) (i : Instr) : ¬ ErrorCause s i .illegalCommand := by
  cases i <;> simp [ErrorCause]

/-- What a command tests for errors are the four counters (R171: every check is made before the command writes). -/
theorem CountersKept.errorCause_iff {s t : State} (h : CountersKept s t) (i : Instr) (e : Error) :
    ErrorCause t i e ↔ ErrorCause s i e := by
  obtain ⟨hnnodes, hnleaf, hcount, htotal⟩ := h
  cases i <;> simp [ErrorCause, hnnodes, hnleaf, hcount, htotal]

section
variable {s : State} (hr : cmdReady s = true)
include hr

/-- R170, R171: a command whose error has its cause does exactly a `raise`. -/
theorem exec_of_errorCause {i : Instr} {e : Error} (hc : ErrorCause s i e) : exec i s = .next (raise e s) := by
  cases i with
  | clear => exact hc.elim
  | push b x =>
    rcases hc with ⟨rfl, hfull⟩ | ⟨rfl, hleaf, hover⟩
    · exact execPush_next.2 (.inr (.inl ⟨hr, hfull, rfl⟩))
    · exact execPush_next.2 (.inr (.inr (.inl ⟨hr, hleaf, hover, rfl⟩)))
  | merge =>
    rcases hc with ⟨rfl, hempty⟩ | ⟨rfl, hone⟩
    · exact execMerge_next.2 (.inr (.inl ⟨hr, hempty, rfl⟩))
    · exact execMerge_next.2 (.inr (.inr (.inl ⟨hr, hone, rfl⟩)))
  | reduce =>
    obtain ⟨rfl, hempty⟩ := hc
    exact execReduce_next.2 (.inr (.inl ⟨hr, hempty, rfl⟩))
  | rdnode k =>
    obtain ⟨rfl, hbad⟩ := hc
    exact execRdnode_next.2 (.inr (.inl ⟨hr, hbad, rfl⟩))
  | rdstat => exact hc.elim

/-- R170, R171: a ready block raises an error for a cause of the table, or the command succeeds. -/
theorem exec_raises_or_succeeds {i : Instr} {t : State} (h : exec i s = .next t) :
    (∃ e, ErrorCause s i e ∧ t = raise e s) ∨ Succeeds t := by
  have not_held : ¬ (cmdReady s = false ∧ t = s) := by simp [hr]
  cases i with
  | clear =>
    obtain ⟨-, rfl⟩ := (execClear_next.1 h).resolve_left not_held
    exact .inr (succeeds_of_rsp rfl (rcOf_rsWord _))
  | push b x =>
    rcases (execPush_next.1 h).resolve_left not_held with ⟨-, hfull, e⟩ | ⟨-, hleaf, hover, e⟩ | ⟨-, -, -, -, rfl⟩
    · exact .inl ⟨_, .inl ⟨rfl, hfull⟩, e⟩
    · exact .inl ⟨_, .inr ⟨rfl, hleaf, hover⟩, e⟩
    · exact .inr (succeeds_of_rsp rfl (rcOf_rxWord _ _))
  | merge =>
    rcases (execMerge_next.1 h).resolve_left not_held with ⟨-, hempty, e⟩ | ⟨-, hone, e⟩ | ⟨-, -, u, n, -, -, rfl⟩
    · exact .inl ⟨_, .inl ⟨rfl, hempty⟩, e⟩
    · exact .inl ⟨_, .inr ⟨rfl, hone⟩, e⟩
    · exact .inr (succeeds_of_rsp rfl (rcOf_rxWord _ _))
  | reduce =>
    rcases (execReduce_next.1 h).resolve_left not_held with ⟨-, hempty, e⟩ | ⟨-, -, rfl⟩
    · exact .inl ⟨_, ⟨rfl, hempty⟩, e⟩
    · exact .inr (succeeds_of_rsp_none ((cmdReady_iff s).1 hr).2)
  | rdnode k =>
    rcases (execRdnode_next.1 h).resolve_left not_held with ⟨-, hbad, e⟩ | ⟨-, -, n, -, rfl⟩
    · exact .inl ⟨_, ⟨rfl, hbad⟩, e⟩
    · exact .inr (succeeds_of_rsp rfl (rcOf_rnWord n))
  | rdstat =>
    obtain ⟨-, rfl⟩ := (execRdstat_next.1 h).resolve_left not_held
    exact .inr (succeeds_of_rsp rfl (rcOf_rsWord s))

/-- R170: the table is exact. -/
theorem exec_eq_raise_iff {i : Instr} {e : Error} : exec i s = .next (raise e s) ↔ ErrorCause s i e := by
  refine ⟨fun h => ?_, exec_of_errorCause hr⟩
  rcases exec_raises_or_succeeds hr h with ⟨e', hc, heq⟩ | hsucc
  · exact raise_injective heq ▸ hc
  · exact absurd rfl (hsucc.rsp_ne_reWord e)

/-- R170, R180: IllegalCommand is raised by the words that are no command, and by no command. -/
theorem issue_eq_raise_illegalCommand_iff {w : Word} :
    issue w s = .next (raise .illegalCommand s) ↔ ∃ r, decode w = .error r := by
  cases hd : decode w with
  | ok i => simpa [issue, hd, exec_eq_raise_iff hr] using not_errorCause_illegalCommand s i
  | error r => simp [issue, hd]

end

/-- Settles O20: command by command the table is `ErrorCause`, and a `Work` step answers no error word. -/
theorem errorsAreRaisedExactlyWhenTheirConditionHolds :
    Obligations.ErrorsAreRaisedExactlyWhenTheirConditionHolds := by
  unfold Obligations.ErrorsAreRaisedExactlyWhenTheirConditionHolds
  refine ⟨fun s hr => ⟨fun _ => (exec_eq_raise_iff hr).1, fun _ => (exec_eq_raise_iff hr).1,
    fun _ _ _ => exec_eq_raise_iff hr, fun _ => exec_eq_raise_iff hr, fun _ => exec_eq_raise_iff hr,
    fun _ _ => exec_eq_raise_iff hr, fun _ => issue_eq_raise_illegalCommand_iff hr⟩,
    fun s t hw => ⟨work_fault hw, fun e hrsp => ?work⟩, by decide⟩
  case work =>
    rcases work_rsp hw with hkept | hsucc
    · exact hkept ▸ hrsp
    · exact absurd hrsp (hsucc.rsp_ne_reWord e)

/-! ## What an error leaves -/

/-- R174: with the error word taken, an idle block is ready again. -/
theorem cmdReady_takeResponse_raise {s : State} (hr : cmdReady s = true) (e : Error) :
    cmdReady (takeResponse (raise e s)) = true := by
  simp [cmdReady_iff, ((cmdReady_iff s).1 hr).1]

/-- R171: an error and the taking of its word keep the counters. -/
theorem countersKept_takeResponse_raise (e : Error) (s : State) : CountersKept s (takeResponse (raise e s)) :=
  ⟨rfl, rfl, rfl, rfl⟩

/-- Settles O21: `raise` bit by bit; a command that does not raise succeeds; the cause of an error outlasts it. -/
theorem errorsArePrecise : Obligations.ErrorsArePrecise := by
  unfold Obligations.ErrorsArePrecise
  refine ⟨fun e s => ⟨fun j _ => setFault_getLsbD e s.fault j, ?word⟩, fun i s t r hr h hrsp hrc => ?precise,
    fun i s e hr h => ?repeats⟩
  case word => rw [← reWord_eq_ofNat]; rfl
  case precise =>
    rcases exec_raises_or_succeeds hr h with ⟨e, -, heq⟩ | hsucc
    · exact ⟨e, heq⟩
    · exact absurd (hsucc r hrsp) hrc
  case repeats =>
    have hc : ErrorCause s i e := (exec_eq_raise_iff hr).1 h
    have hkept := countersKept_takeResponse_raise e s
    exact exec_of_errorCause (cmdReady_takeResponse_raise hr e) ((hkept.errorCause_iff i e).2 hc)

end Sys2Proof.Machine
end

section
/-! The steps of the machine, one equation per move of the host (70_reset_and_hazards.md R203 to R209): a command runs, is
held, a response is taken, the engine works, reset strikes. -/

namespace Sys2Proof.Machine

/-! ## The step for each move of the host -/

section
variable {s : State} {w : Word} {rest : List HostMove}

theorem engineTurn_idle (hp : s.phase = .idle) : engineTurn s = .next s := engineTurn_next.2 (.inl ⟨hp, rfl⟩)

/-- R209: a host without moves leaves the engine its step. -/
theorem step_of_nil (hh : s.host = []) : step s = engineTurn s := by simp only [step, turn, hh]

/-- R209: a host that waits leaves the engine its step. -/
theorem step_of_wait (hh : s.host = .wait :: rest) : step s = engineTurn { s with host := rest } := by
  simp only [step, turn, hh]

/-- R200: reset strikes whatever the block is doing. -/
theorem step_of_reset (hh : s.host = .reset :: rest) : step s = .next (resetBlock { s with host := rest }) := by
  simp only [step, turn, hh]

/-- R205: the host takes the response that waits. -/
theorem step_of_take {r : Word} (hh : s.host = .take :: rest) (hrsp : s.rsp = some r) :
    step s = .next { s with rsp := none, host := rest, taken := s.taken ++ [r] } := by
  simp [step, turn, hh, rspValid, takeResponse, hrsp]

/-- R205: a host that waits for its response leaves the engine its step. -/
theorem step_of_take_waiting (hh : s.host = .take :: rest) (hrsp : s.rsp = none) : step s = engineTurn s := by
  simp [step, turn, hh, rspValid, hrsp]

/-- R204: a ready block accepts the word offered. -/
theorem step_of_issue (hh : s.host = .issue w :: rest) (hr : cmdReady s = true) :
    step s = issue w { s with host := rest } := by
  simp only [step, turn, hh, hr, if_true]

/-- R204: a block that is not ready leaves the word offered, and the engine has the step. -/
theorem step_of_issue_held (hh : s.host = .issue w :: rest) (hr : cmdReady s = false) : step s = engineTurn s := by
  simp only [step, turn, hh, hr, Bool.false_eq_true, if_false]

theorem cmdReady_false_of_busy (hp : s.phase = .busy) : cmdReady s = false := by simp [cmdReady, hp]

theorem cmdReady_false_of_rsp (hrsp : s.rsp ≠ none) : cmdReady s = false := by simp [cmdReady, hrsp]

theorem issue_of_decode {i : Instr} (hd : decode w = .ok i) : issue w s = exec i s := by simp only [issue, hd]

/-- R180: an illegal word is not executed. -/
theorem issue_of_illegal {e : Illegal} (hd : decode w = .error e) : issue w s = .next (raise .illegalCommand s) := by
  simp only [issue, hd]

end

/-- Settles O29: by `step_of_issue`. -/
theorem stepRunsTheDecodedCommand : Obligations.StepRunsTheDecodedCommand := by
  unfold Obligations.StepRunsTheDecodedCommand
  exact fun s w i rest hr hh hd => (step_of_issue hh hr).trans (issue_of_decode hd)

/-- Settles O30: a command is held by `exec_held`, an offered word by `step_of_issue_held`. -/
theorem commandsAreHeldUntilReady : Obligations.CommandsAreHeldUntilReady := by
  unfold Obligations.CommandsAreHeldUntilReady
  exact ⟨fun i s hr => exec_held hr i,
    fun s w rest hh hp => (step_of_issue_held hh (cmdReady_false_of_busy hp)).trans (engineTurn_busy hp),
    fun s w rest hh hp hrsp => (step_of_issue_held hh (cmdReady_false_of_rsp hrsp)).trans (engineTurn_idle hp)⟩

/-- Settles O31: by `step_of_take` and `step_of_take_waiting`. -/
theorem takeEmptiesTheResponse : Obligations.TakeEmptiesTheResponse := by
  unfold Obligations.TakeEmptiesTheResponse
  exact ⟨fun s r rest => step_of_take, fun s rest hh hrsp hp => (step_of_take_waiting hh hrsp).trans (engineTurn_idle hp),
    fun s rest hh hrsp hp => (step_of_take_waiting hh hrsp).trans (engineTurn_busy hp)⟩

/-- Settles O32: by `step_of_nil` and `step_of_wait`. -/
theorem waitingLeavesTheEngineItsStep : Obligations.WaitingLeavesTheEngineItsStep := by
  unfold Obligations.WaitingLeavesTheEngineItsStep
  exact ⟨fun s hh hp => (step_of_nil hh).trans (engineTurn_idle hp),
    fun s hh hp => (step_of_nil hh).trans (engineTurn_busy hp),
    fun s rest hh hp => (step_of_wait hh).trans (engineTurn_idle hp),
    fun s rest hh hp => (step_of_wait hh).trans (engineTurn_busy hp)⟩

/-- Settles O33: by `step_of_reset`; the reset block is the block after reset. -/
theorem resetStrikesInAnyState : Obligations.ResetStrikesInAnyState := by
  unfold Obligations.ResetStrikesInAnyState
  exact fun s rest hh => ⟨_, step_of_reset hh, resetBlock_sameBlock _, rfl, rfl⟩

/-- Settles O43: REDUCE is held, raises or is accepted; a CLEAR that runs empties the store. -/
theorem reduceAndClearFrame : Obligations.ReduceAndClearFrame := by
  unfold Obligations.ReduceAndClearFrame
  refine ⟨fun s t h => ?reduce, fun s t hr h => ?clear⟩
  case reduce =>
    rcases execReduce_next.1 h with ⟨-, rfl⟩ | ⟨-, -, rfl⟩ | ⟨hr, -, rfl⟩
    · exact ⟨fun _ => rfl, .inl rfl⟩
    · exact ⟨fun _ => rfl, .inr (.inr rfl)⟩
    · exact ⟨fun _ => rfl, .inr (.inl ⟨rfl, ((cmdReady_iff s).1 hr).2⟩)⟩
  case clear =>
    rw [(execCase_of_ready hr h).eq_of_clear]
    exact ⟨rfl, rfl, rfl, rfl, fun _ => rfl⟩

/-! ## The engine of a BUSY block -/

/-- Settles O26: the merge is R123's; the finish is `StateInv.work_finishes`. -/
theorem workMergesOrFinishes : Obligations.WorkMergesOrFinishes := by
  unfold Obligations.WorkMergesOrFinishes
  refine ⟨fun s h h2 => ?_, fun s h h1 => h.work_finishes h1⟩
  obtain ⟨t, ht⟩ : ∃ t, mergeStep s = .ok t := h.mergeStepWith_runs h2 _ _ _
  exact ⟨t, work_next.2 (.inl ⟨h2, ht⟩), mergeStepWith_rel ht⟩

/-- R206, R208: a BUSY block does a `Work` step unless the host's next move is a reset. -/
theorem step_busy_eq_work {s : State} (hp : s.phase = .busy) (hrsp : s.rsp = none)
    (hh : ∀ rest, s.host ≠ .reset :: rest) : ∃ moves, step s = work { s with host := moves } := by
  match hm : s.host with
  | [] => exact ⟨s.host, (step_of_nil hm).trans (engineTurn_busy hp)⟩
  | .reset :: rest => exact absurd hm (hh rest)
  | .wait :: rest => exact ⟨rest, (step_of_wait hm).trans (engineTurn_busy hp)⟩
  | .take :: rest => exact ⟨s.host, (step_of_take_waiting hm hrsp).trans (engineTurn_busy hp)⟩
  | .issue w :: rest =>
    exact ⟨s.host, (step_of_issue_held hm (cmdReady_false_of_busy hp)).trans (engineTurn_busy hp)⟩

/-- Settles O34: the step is a `Work` step, which merges or finishes. -/
theorem onlyResetEndsAReduceEarly : Obligations.OnlyResetEndsAReduceEarly := by
  unfold Obligations.OnlyResetEndsAReduceEarly
  intro s t hp hrsp hh hs
  obtain ⟨moves, hstep⟩ := step_busy_eq_work hp hrsp hh
  rcases work_next.1 (hstep.symm.trans hs) with ⟨h2, hmerge⟩ | ⟨h1, r, n, hq, hn, rfl⟩
  · rw [mergeStep_frame hmerge]
    exact .inl ⟨h2, hp, hrsp, Nat.sub_add_cancel h2.le⟩
  · exact .inr ⟨h1, rfl, rfl, n, hq, hn, rfl⟩

/-! ## One response per word -/

/-- `t` has the host's moves and received words of `s`. -/
def HostKept (s t : State) : Prop := t.host = s.host ∧ t.taken = s.taken

/-- `t` is an idle block with a response waiting. -/
def Responding (t : State) : Prop := t.phase = .idle ∧ ∃ r, t.rsp = some r

/-- A command leaves the host's moves and what the host has received alone. -/
theorem ExecCase.hostKept {i : Instr} {s t : State} (hx : ExecCase s i t) : HostKept s t := by
  cases hx with
  | merged u n hcount hmerge hn => rw [mergeStep_frame hmerge]; exact ⟨rfl, rfl⟩
  | _ => exact ⟨rfl, rfl⟩

/-- A `Work` step leaves the host's moves and what the host has received alone. -/
theorem work_hostKept {s t : State} (hw : work s = .next t) : HostKept s t := by
  rcases work_next.1 hw with ⟨-, hmerge⟩ | ⟨-, r, n, -, -, rfl⟩
  · rw [mergeStep_frame hmerge]; exact ⟨rfl, rfl⟩
  · exact ⟨rfl, rfl⟩

/-- A command that a ready block runs answers at once, or is a REDUCE, which leaves the block BUSY (R204). -/
theorem ExecCase.responding_or_busy {i : Instr} {s t : State} (hx : ExecCase s i t) (hp : s.phase = .idle) :
    Responding t ∨ t.phase = .busy := by
  cases hx with
  | merged u n hcount hmerge hn => rw [mergeStep_frame hmerge]; exact .inl ⟨hp, _, rfl⟩
  | accepted hcount => exact .inr rfl
  | _ => exact .inl ⟨hp, _, rfl⟩

/-- A word issued to a ready block is answered at once, or leaves the block BUSY (R204, 60_exceptions.md R180). -/
theorem StateInv.issue_responding_or_busy {s : State} (h : StateInv s) (hr : cmdReady s = true) (w : Word) :
    ∃ t, issue w s = .next t ∧ HostKept s t ∧ (Responding t ∨ t.phase = .busy) := by
  have hp := ((cmdReady_iff s).1 hr).1
  cases hd : decode w with
  | error e => exact ⟨_, issue_of_illegal hd, ⟨rfl, rfl⟩, .inl ⟨hp, _, rfl⟩⟩
  | ok i =>
    obtain ⟨t, ht⟩ := h.exec_runs i
    have hx := execCase_of_ready hr ht
    exact ⟨t, (issue_of_decode hd).trans ht, hx.hostKept, hx.responding_or_busy hp⟩

/-- A run whose first step is known goes on from there. -/
theorem runs_succ {s t : State} (h : step s = .next t) (k : Nat) : runs (k + 1) s = runs k t := by rw [runs, h]

/-- A BUSY block of `n` trees answers after `n` steps, if the host waits for its response (41_reduction.md R126, R210). -/
theorem StateInv.runs_responding {s : State} (h : StateInv s) (hp : s.phase = .busy) {rest : List HostMove}
    (hh : s.host = .take :: rest) : ∃ t, runs s.count s = .next t ∧ HostKept s t ∧ Responding t := by
  obtain ⟨hrsp, hpos⟩ := h.v9 hp
  induction hn : s.count generalizing s with
  | zero => omega
  | succ n ih =>
    obtain ⟨t, hw⟩ := h.work_runs hpos
    have hs : step s = .next t := (step_of_take_waiting hh hrsp).trans ((engineTurn_busy hp).trans hw)
    obtain ⟨hhost, htaken⟩ := work_hostKept hw
    rw [runs_succ hs]
    rcases work_next.1 hw with ⟨h2, hmerge⟩ | ⟨h1, r, m, -, -, rfl⟩
    · have hframe := mergeStep_frame hmerge
      have hcount : t.count = n := by rw [hframe]; dsimp only; omega
      have hpt : t.phase = .busy := by rw [hframe]; exact hp
      obtain ⟨hrspt, hpost⟩ := (h.stepped hs).v9 hpt
      obtain ⟨u, hu, ⟨huhost, hutaken⟩, hresp⟩ := ih (h.stepped hs) hpt (hhost.trans hh) hrspt hpost hcount
      exact ⟨u, hu, ⟨huhost.trans hhost, hutaken.trans htaken⟩, hresp⟩
    · obtain rfl : n = 0 := by omega
      exact ⟨_, rfl, ⟨rfl, rfl⟩, rfl, _, rfl⟩

/-- The host takes the response of an idle block, which is then ready (R205). -/
theorem Responding.step_take {t : State} (h : Responding t) {rest : List HostMove} (hh : t.host = .take :: rest) :
    ∃ u r, step t = .next u ∧ u.taken = t.taken ++ [r] ∧ cmdReady u = true ∧ u.host = rest := by
  obtain ⟨hp, r, hrsp⟩ := h
  exact ⟨_, r, step_of_take hh hrsp, rfl, (cmdReady_iff _).2 ⟨hp, rfl⟩, rfl⟩

/-- Settles O35: one step to issue the word, at most 256 for the engine of a REDUCE, one to take the response. -/
theorem everyCommandIsAnsweredOnce : Obligations.EveryCommandIsAnsweredOnce := by
  unfold Obligations.EveryCommandIsAnsweredOnce
  intro s w rest h hr hh
  obtain ⟨t, hi, ⟨hhost, htaken⟩, hcase⟩ := (h.with_host (.take :: rest)).issue_responding_or_busy hr w
  have hs : step s = .next t := (step_of_issue hh hr).trans hi
  have hinv := h.stepped hs
  obtain ⟨k, hk, u, hu, ⟨huhost, hutaken⟩, hresp⟩ :
      ∃ k ≤ 256, ∃ u, runs k t = .next u ∧ HostKept t u ∧ Responding u := by
    rcases hcase with hresp | hp
    · exact ⟨0, by omega, t, rfl, ⟨rfl, rfl⟩, hresp⟩
    · exact ⟨t.count, hinv.v3_count, hinv.runs_responding hp hhost⟩
  obtain ⟨v, r, hv, hvtaken, hready, hvhost⟩ := hresp.step_take (huhost.trans hhost)
  refine ⟨k + 1 + 1, by omega, v, r, ?_, ?_, hready, hvhost⟩
  · rw [runs_succ hs, runs_add hu, runs_succ hv]; rfl
  · rw [hvtaken, hutaken, htaken]

/-- The invariant holds along a run. -/
theorem StateInv.runs_keep {k : Nat} {s t : State} (h : StateInv s) (hrun : runs k s = .next t) : StateInv t := by
  induction k generalizing s with
  | zero => cases hrun; exact h
  | succ k ih =>
    rw [runs] at hrun
    split at hrun
    · next u hs => exact ih (h.stepped hs) hrun
    · next hstop => exact absurd hrun (hstop t)

/-- Settles O36: word by word, O35. -/
theorem everyWordOfARunIsAnswered : Obligations.EveryWordOfARunIsAnswered := by
  unfold Obligations.EveryWordOfARunIsAnswered
  intro ws
  induction ws with
  | nil =>
    intro s rest h hr hh
    exact ⟨0, by simp, s, [], rfl, by simp, rfl, hh, (cmdReady_iff s).1 hr⟩
  | cons w ws ih =>
    intro s rest h hr hh
    obtain ⟨k, hk, t, r, hrun, htaken, hready, hhost⟩ := everyCommandIsAnsweredOnce s w (runMoves ws ++ rest) h hr hh
    obtain ⟨j, hj, u, rs, hrun', htaken', hlen, hend⟩ := ih t rest (h.runs_keep hrun) hready hhost
    refine ⟨k + j, ?_, u, r :: rs, (runs_add hrun j).trans hrun', ?_, congrArg (· + 1) hlen, hend⟩
    · rw [List.length_cons]; omega
    · rw [htaken', htaken, List.append_assoc, List.singleton_append]

end Sys2Proof.Machine
end

section
/-! The transition system of 70_reset_and_hazards.md R203: every step of the machine is one of its steps, exactly one of Issue,
Take and Work is enabled, and only tied weights leave a choice. -/

namespace Sys2Proof.Machine

/-! ## What each kind of step allows -/

section
variable {s t : State} {w : Word}

/-- R180: what the transition system allows of an illegal word. -/
theorem allowed_illegal_iff {e : Illegal} (hd : decode w = .error e) :
    Allowed s (.issue w) t ↔ cmdReady s = true ∧ SameBlock t (raise .illegalCommand s) := by
  simp only [Allowed, hd, cmdReady_iff, and_assoc]

/-- R124: what it allows of a MERGE. -/
theorem allowed_merge_iff (hd : decode w = .ok .merge) :
    Allowed s (.issue w) t ↔ cmdReady s = true ∧
      ((s.count = 0 ∧ SameBlock t (raise .emptyInput s)) ∨ (s.count = 1 ∧ SameBlock t (raise .tooFew s)) ∨
        (2 ≤ s.count ∧ MergeIssue s t)) := by
  simp only [Allowed, hd, cmdReady_iff, and_assoc]
  refine and_congr_right fun _ => and_congr_right fun _ => ?_
  by_cases h0 : s.count = 0
  · simp [h0]
  · by_cases h1 : s.count = 1
    · simp [h1]
    · have h2 : 2 ≤ s.count := by omega
      simp [h0, h1, h2]

/-- R204: what it allows of any other command is what the command does. -/
theorem allowed_command_iff {i : Instr} (hi : i ≠ .merge) (hd : decode w = .ok i) :
    Allowed s (.issue w) t ↔ cmdReady s = true ∧ ∃ u, exec i s = .next u ∧ SameBlock t u := by
  cases i with
  | merge => exact absurd rfl hi
  | reduce =>
    simp only [Allowed, hd, ← and_assoc, ← cmdReady_iff]
    refine and_congr_right fun hr => ?_
    by_cases h0 : s.count = 0
    · simp [h0, exec, execReduce, whenReady_ready hr]
    · simp [h0, exec, execReduce, whenReady_ready hr]
  | _ => simp only [Allowed, hd, cmdReady_iff, and_assoc]

/-- R206: a `Work` step of a BUSY block is one that is allowed. -/
theorem allowed_work_of_work (hp : s.phase = .busy) (hw : work s = .next t) : Allowed s .work t := by
  refine ⟨hp, ?_⟩
  rcases work_next.1 hw with ⟨h2, hmerge⟩ | ⟨h1, r, n, hq, hn, rfl⟩
  · rw [if_pos h2]
    exact mergeStepWith_rel hmerge
  · rw [if_neg h1.not_gt]
    exact ⟨r, n, hq, hn, rfl⟩

/-- R204: what a ready block does with a word is allowed. -/
theorem allowed_issue_of_issue (hr : cmdReady s = true) (hi : issue w s = .next t) : Allowed s (.issue w) t := by
  cases hd : decode w with
  | error e =>
    cases (issue_of_illegal hd).symm.trans hi
    exact (allowed_illegal_iff hd).2 ⟨hr, rfl⟩
  | ok i =>
    rw [issue_of_decode hd] at hi
    by_cases hm : i = .merge
    · subst hm
      refine (allowed_merge_iff hd).2 ⟨hr, ?_⟩
      rcases execMerge_next.1 hi with ⟨hn, -⟩ | ⟨-, h0, rfl⟩ | ⟨-, h1, rfl⟩ | ⟨-, h2, u, n, hu, hn, rfl⟩
      · simp [hr] at hn
      · exact .inl ⟨h0, rfl⟩
      · exact .inr (.inl ⟨h1, rfl⟩)
      · exact .inr (.inr ⟨h2, u, n, mergeStepWith_rel hu, hn, rfl⟩)
    · exact (allowed_command_iff hm hd).2 ⟨hr, t, hi, rfl⟩

end

/-! ## Every step is allowed -/

/-- A command does the same whatever moves the host plans. MERGE is left out: what is allowed of it is stated by `MergeRel`, in
which the host has no part. -/
theorem exec_without_host {i : Instr} (hi : i ≠ .merge) {s t : State} {moves : List HostMove}
    (h : exec i { s with host := moves } = .next t) : exec i s = .next { t with host := s.host } := by
  cases i with
  | merge => exact absurd rfl hi
  | clear =>
    rcases execClear_next.1 h with ⟨hr, rfl⟩ | ⟨hr, rfl⟩
    · exact execClear_next.2 (.inl ⟨hr, rfl⟩)
    · exact execClear_next.2 (.inr ⟨hr, rfl⟩)
  | push b x =>
    rcases execPush_next.1 h with ⟨hr, rfl⟩ | ⟨hr, hfull, rfl⟩ | ⟨hr, hleaf, hover, rfl⟩ | ⟨hr, hleaf, hfit, hfree, rfl⟩
    · exact execPush_next.2 (.inl ⟨hr, rfl⟩)
    · exact execPush_next.2 (.inr (.inl ⟨hr, hfull, rfl⟩))
    · exact execPush_next.2 (.inr (.inr (.inl ⟨hr, hleaf, hover, rfl⟩)))
    · exact execPush_next.2 (.inr (.inr (.inr ⟨hr, hleaf, hfit, hfree, rfl⟩)))
  | reduce =>
    rcases execReduce_next.1 h with ⟨hr, rfl⟩ | ⟨hr, h0, rfl⟩ | ⟨hr, h1, rfl⟩
    · exact execReduce_next.2 (.inl ⟨hr, rfl⟩)
    · exact execReduce_next.2 (.inr (.inl ⟨hr, h0, rfl⟩))
    · exact execReduce_next.2 (.inr (.inr ⟨hr, h1, rfl⟩))
  | rdnode k =>
    rcases execRdnode_next.1 h with ⟨hr, rfl⟩ | ⟨hr, hbad, rfl⟩ | ⟨hr, hlt, n, hn, rfl⟩
    · exact execRdnode_next.2 (.inl ⟨hr, rfl⟩)
    · exact execRdnode_next.2 (.inr (.inl ⟨hr, hbad, rfl⟩))
    · exact execRdnode_next.2 (.inr (.inr ⟨hr, hlt, n, hn, rfl⟩))
  | rdstat =>
    rcases execRdstat_next.1 h with ⟨hr, rfl⟩ | ⟨hr, rfl⟩
    · exact execRdstat_next.2 (.inl ⟨hr, rfl⟩)
    · exact execRdstat_next.2 (.inr ⟨hr, rfl⟩)

/-- The host's coming moves play no part in what is allowed of a word. -/
theorem allowed_issue_without_host {s t : State} {w : Word} {moves : List HostMove}
    (h : Allowed { s with host := moves } (.issue w) t) : Allowed s (.issue w) t := by
  cases hd : decode w with
  | error e => exact (allowed_illegal_iff hd).2 ((allowed_illegal_iff (s := { s with host := moves }) hd).1 h)
  | ok i =>
    by_cases hm : i = .merge
    · subst hm
      exact (allowed_merge_iff hd).2 ((allowed_merge_iff (s := { s with host := moves }) hd).1 h)
    · obtain ⟨hr, u, hu, hsame⟩ := (allowed_command_iff hm hd).1 h
      exact (allowed_command_iff hm hd).2 ⟨hr, _, exec_without_host hm hu, hsame⟩

/-- What the engine does with a step the host leaves it: the block stutters when idle, and works when BUSY. -/
theorem engineTurn_allowed {s t : State} {moves : List HostMove} (hh : ∀ rest, s.host ≠ .reset :: rest)
    (h : engineTurn { s with host := moves } = .next t) :
    (SameBlock t s ∧ t.taken = s.taken) ∨
      (Allowed s .work t ∧ (∀ rest, s.host ≠ .reset :: rest) ∧ t.taken = s.taken) := by
  rcases engineTurn_next.1 h with ⟨-, rfl⟩ | ⟨hp, hw⟩
  · exact .inl ⟨rfl, rfl⟩
  · obtain ⟨-, htaken⟩ := work_hostKept hw
    have hallowed := allowed_work_of_work hp hw
    exact .inr ⟨hallowed, hh, htaken⟩

/-- Settles O6: move by move of the host. -/
theorem everyStepIsAnAllowedStep : Obligations.EveryStepIsAnAllowedStep := by
  unfold Obligations.EveryStepIsAnAllowedStep
  intro s t hs
  rcases step_next hs with ⟨hm, ht⟩ | ⟨rest, hm, rfl⟩ | ⟨rest, hm, ht⟩ | ⟨rest, r, hm, hrsp, rfl⟩ | ⟨rest, hm, -, ht⟩ |
    ⟨w, rest, i, hm, hr, hd, hx⟩ | ⟨w, rest, e, hm, hr, hd, rfl⟩ | ⟨w, rest, hm, -, ht⟩
  · exact (engineTurn_allowed (by simp [hm]) ht).imp_right (.inr ∘ .inr ∘ .inl)
  · exact .inr (.inr (.inr (.inr ⟨rfl, hm, rfl⟩)))
  · exact (engineTurn_allowed (by simp [hm]) ht).imp_right (.inr ∘ .inr ∘ .inl)
  · exact .inr (.inr (.inl ⟨⟨by simp [hrsp], rfl⟩, hm, r, hrsp, rfl⟩))
  · exact (engineTurn_allowed (by simp [hm]) ht).imp_right (.inr ∘ .inr ∘ .inl)
  · have hr' : cmdReady { s with host := rest } = true := hr
    obtain ⟨hhost, htaken⟩ := (execCase_of_ready hr' hx).hostKept
    have hallowed := allowed_issue_without_host (allowed_issue_of_issue hr' ((issue_of_decode hd).trans hx))
    exact .inr (.inl ⟨w, hallowed, by rw [hm, hhost], htaken⟩)
  · exact .inr (.inl ⟨w, (allowed_illegal_iff hd).2 ⟨hr, rfl⟩, hm, rfl⟩)
  · exact (engineTurn_allowed (by simp [hm]) ht).imp_right (.inr ∘ .inr ∘ .inl)

/-! ## What is enabled -/

section
variable {s : State} (h : StateInv s)
include h

/-- R203: Issue is enabled, for every word, in a ready block. -/
theorem StateInv.enabled_issue_iff (w : Word) : Enabled s (.issue w) ↔ s.phase = .idle ∧ s.rsp = none := by
  constructor
  · rintro ⟨t, hp, hrsp, -⟩
    exact ⟨hp, hrsp⟩
  · intro hr
    obtain ⟨t, ht⟩ := h.issue_runs w
    exact ⟨t, allowed_issue_of_issue ((cmdReady_iff s).2 hr) ht⟩

/-- R203: Work is enabled in a BUSY block. -/
theorem StateInv.enabled_work_iff : Enabled s .work ↔ s.phase = .busy := by
  constructor
  · rintro ⟨t, hp, -⟩
    exact hp
  · intro hp
    obtain ⟨t, ht⟩ := h.work_runs (h.v9 hp).2
    exact ⟨t, allowed_work_of_work hp ht⟩

end

/-- R203: Take is enabled where a response waits. -/
theorem enabled_take_iff (s : State) : Enabled s .take ↔ s.rsp ≠ none :=
  ⟨fun ⟨_, hrsp, _⟩ => hrsp, fun hrsp => ⟨_, hrsp, rfl⟩⟩

/-! ## What leaves a choice -/

theorem SameBlock.node_eq {s t : State} (h : SameBlock s t) : s.node = t.node := ((sameBlock_iff s t).1 h).1

/-- Without a tie the Issue of a MERGE that merges has one successor. -/
theorem MergeIssue.unique {s t u : State} (h : ¬ MergeTied s) (ht : MergeIssue s t) (hu : MergeIssue s u) :
    SameBlock t u := by
  obtain ⟨t', n, hmt, hn, et⟩ := ht
  obtain ⟨u', k, hmu, hk, eu⟩ := hu
  have hsame : SameBlock t' u' := hmt.unique h hmu
  have hnode : t'.node = u'.node := hsame.node_eq
  obtain rfl : n = k := by rw [hnode, hk] at hn; exact (Option.some.inj hn).symm
  have hblock := congrArg (fun b => respond (rxWord s.nnodes n) { b with rv := false }) hsame
  exact et.trans (hblock.trans eu.symm)

/-- R203: without tied weights the Issue of a word has one successor. -/
theorem hasChoice_or_sameBlock_of_issue {s t u : State} {w : Word} (ht : Allowed s (.issue w) t)
    (hu : Allowed s (.issue w) u) : HasChoice s (.issue w) ∨ SameBlock t u := by
  cases hd : decode w with
  | error e => exact .inr (((allowed_illegal_iff hd).1 ht).2.trans ((allowed_illegal_iff hd).1 hu).2.symm)
  | ok i =>
    by_cases hm : i = .merge
    · subst hm
      obtain ⟨-, ht⟩ := (allowed_merge_iff hd).1 ht
      obtain ⟨-, hu⟩ := (allowed_merge_iff hd).1 hu
      rcases ht with ⟨h0, ht⟩ | ⟨h1, ht⟩ | ⟨h2, ht⟩
      · have hu : SameBlock u (raise .emptyInput s) := by simpa [h0] using hu
        exact .inr (ht.trans hu.symm)
      · have hu : SameBlock u (raise .tooFew s) := by simpa [h1] using hu
        exact .inr (ht.trans hu.symm)
      · have hu : MergeIssue s u := by
          rcases hu with ⟨h0, -⟩ | ⟨h1, -⟩ | ⟨-, hu⟩
          · omega
          · omega
          · exact hu
        by_cases htied : MergeTied s
        · exact .inl ⟨h2, htied, .inr ⟨w, rfl, hd⟩⟩
        · exact .inr (ht.unique htied hu)
    · obtain ⟨-, t', hxt, et⟩ := (allowed_command_iff hm hd).1 ht
      obtain ⟨-, u', hxu, eu⟩ := (allowed_command_iff hm hd).1 hu
      cases hxt.symm.trans hxu
      exact .inr (et.trans eu.symm)

/-- R206: without tied weights a `Work` step has one successor. -/
theorem hasChoice_or_sameBlock_of_work {s t u : State} (ht : Allowed s .work t) (hu : Allowed s .work u) :
    HasChoice s .work ∨ SameBlock t u := by
  obtain ⟨-, ht⟩ := ht
  obtain ⟨-, hu⟩ := hu
  by_cases h2 : s.count > 1
  · rw [if_pos h2] at ht hu
    by_cases htied : MergeTied s
    · exact .inl ⟨h2, htied, .inl rfl⟩
    · exact .inr (ht.unique htied hu)
  · rw [if_neg h2] at ht hu
    obtain ⟨r, n, hq, hn, et⟩ := ht
    obtain ⟨r', n', hq', hn', eu⟩ := hu
    cases hq.symm.trans hq'
    cases hn.symm.trans hn'
    exact .inr (et.trans eu.symm)

/-- R123: two least members in turn make a merge step; the new record names them. -/
theorem mergeRel_of_minOf {s : State} {a b : Nat} (ha : MinOf s.node s.q a) (hb : MinOf s.node (qRemove a s.q) b) :
    ∃ t x, MergeRel s t ∧ t.node.read s.nnodes = some (.internal a b x) := by
  have ⟨na, hna, _⟩ := ha.2
  have ⟨nb, hnb, _⟩ := hb.2
  exact ⟨_, _, ⟨a, b, na, nb, ha, hb, hna, hnb, rfl⟩, read_write_same ..⟩

/-- With two trees or more a second one can be extracted after the first (R123). -/
theorem StateInv.exists_second {s : State} (h : StateInv s) (h2 : 2 ≤ s.count) {a : Nat} (ha : a ∈ s.q) :
    ∃ b, MinOf s.node (qRemove a s.q) b := by
  have hlen := qRemove_length (qWf_nodup h.queueWf) ha
  have hcount := h.v1_count
  refine exists_min_weight (fun hnil => ?_) fun i hi => h.queue_isSome i ((mem_qRemove ..).1 hi).1
  rw [hnil, List.length_nil] at hlen
  omega

/-- R203: with tied weights there are two merge steps, which make different records. -/
theorem StateInv.two_merges_of_tied {s : State} (h : StateInv s) (h2 : 2 ≤ s.count) (htied : MergeTied s) :
    ∃ t u n k, MergeRel s t ∧ MergeRel s u ∧ t.node.read s.nnodes = some n ∧ u.node.read s.nnodes = some k ∧ n ≠ k := by
  obtain ⟨a, b, c, d, ha, hb, hc, hd, hne⟩ : ∃ a b c d, MinOf s.node s.q a ∧ MinOf s.node (qRemove a s.q) b ∧
      MinOf s.node s.q c ∧ MinOf s.node (qRemove c s.q) d ∧ ¬ (a = c ∧ b = d) := by
    rcases htied with ⟨a, c, ha, hc, hac⟩ | ⟨a, ha, b, d, hb, hd, hbd⟩
    · obtain ⟨b, hb⟩ := h.exists_second h2 ha.1
      obtain ⟨d, hd⟩ := h.exists_second h2 hc.1
      exact ⟨a, b, c, d, ha, hb, hc, hd, fun e => hac e.1⟩
    · exact ⟨a, b, a, d, ha, hb, ha, hd, fun e => hbd e.2⟩
  obtain ⟨t, x, ht, hn⟩ := mergeRel_of_minOf ha hb
  obtain ⟨u, y, hu, hk⟩ := mergeRel_of_minOf hc hd
  refine ⟨t, u, _, _, ht, hu, hn, hk, fun e => ?_⟩
  cases e
  exact hne ⟨rfl, rfl⟩

/-- R203: a merge with tied weights has two successors, which differ in the record made. -/
theorem StateInv.two_successors {s : State} (h : StateInv s) {e : Event} (he : Enabled s e) (hc : HasChoice s e) :
    ∃ t u, Allowed s e t ∧ Allowed s e u ∧ ¬ SameBlock t u := by
  obtain ⟨h2, htied, hkind⟩ := hc
  obtain ⟨t, u, n, k, ht, hu, hn, hk, hne⟩ := h.two_merges_of_tied h2 htied
  have hnode : t.node ≠ u.node := fun e => hne (Option.some.inj (hn.symm.trans (e ▸ hk)))
  rcases hkind with rfl | ⟨w, rfl, hd⟩
  · have hp := h.enabled_work_iff.1 he
    have hwork : ∀ v, MergeRel s v → Allowed s .work v := fun v hv => ⟨hp, (if_pos h2).symm ▸ hv⟩
    exact ⟨t, u, hwork t ht, hwork u hu, fun hsame => hnode hsame.node_eq⟩
  · have hr := (cmdReady_iff s).2 ((h.enabled_issue_iff w).1 he)
    have hissue : ∀ v m, MergeRel s v → v.node.read s.nnodes = some m →
        Allowed s (.issue w) (respond (rxWord s.nnodes m) { v with rv := false }) := fun v m hv hm =>
      (allowed_merge_iff hd).2 ⟨hr, .inr (.inr ⟨h2, v, m, hv, hm, rfl⟩)⟩
    exact ⟨_, _, hissue t n ht hn, hissue u k hu hk, fun hsame => hnode hsame.node_eq⟩

/-- Settles O7: what is enabled follows from `PHASE` and `RSP`, which V9 ties together; only a choice among tied trees leaves
several successors, and it does. -/
theorem exactlyOneKindOfStepIsEnabled : Obligations.ExactlyOneKindOfStepIsEnabled := by
  unfold Obligations.ExactlyOneKindOfStepIsEnabled
  refine ⟨fun s h => ⟨⟨State.reset, rfl⟩, ?kinds⟩, fun s e t u ht hu => ?unique, fun s e h => h.two_successors⟩
  case kinds =>
    simp only [h.enabled_issue_iff, enabled_take_iff, h.enabled_work_iff, forall_const, and_true]
    cases hp : s.phase with
    | busy => simp [(h.v9 hp).1]
    | idle => cases s.rsp <;> simp
  case unique =>
    cases e with
    | issue w => exact hasChoice_or_sameBlock_of_issue ht hu
    | take => exact .inr (ht.2.trans hu.2.symm)
    | work => exact hasChoice_or_sameBlock_of_work ht hu
    | reset => exact .inr (Eq.trans ht hu.symm)

end Sys2Proof.Machine
end

section
/-! The sample words of 95_test_vectors.md 2.1: six that are a command's, and a PUSH word with a must-be-zero bit set (R74). -/

namespace Sys2Proof

/-- R72, R74: a word with PUSH's opcode is refused under that opcode when one of its bits [59:40] is set. -/
theorem decode_push_mbzSet {w : Word} (hop : opOf w = 2#4) (hmbz : field w 40 20 ≠ 0#20) :
    decode w = .error (.mbzSet 2#4) := by
  simp [decode, hop, hmbz]

/-- Settles O11: each legal word is its command's `encode`, so it decodes to it; the illegal one has bit 40 set. -/
theorem sampleWordsDecode : Obligations.SampleWordsDecode := by
  unfold Obligations.SampleWordsDecode
  simp only [decode_eq_ok_iff_encode]
  exact ⟨rfl, rfl, rfl, rfl, rfl, rfl, decode_push_mbzSet (by decide) (by decide)⟩

end Sys2Proof
end
